-- ==== Sys2Proof/Word.lean ====
section
/-! DEFINITION. The bit-vector widths of the block (00_scope.md R7, R10): everything is unsigned. -/

namespace Sys2Proof

/-- A general register, a memory byte or a timer: 8 bits (R7 `REGW`). -/
abbrev Byte := BitVec 8

/-- The program counter, the index register, a stack entry or an instruction word: 16 bits (R7). -/
abbrev Word := BitVec 16

/-- A 4-bit field of a word: a register number, a class, a secondary nibble or a row count (R75). -/
abbrev Nibble := BitVec 4

/-- The 12-bit address field `nnn` (R75). -/
abbrev Addr12 := BitVec 12

end Sys2Proof
end

