-- ==== Sys2Proof/Config.lean ====
section
/-! DEFINITION. What is fixed for the machine: the parameters of 00_scope.md R7, the named configuration
constants that 93_implementation_defined.md section 1 asks a model to take, and the one free value. -/

namespace Sys2Proof

/-- `MEMSIZE`: 4096 bytes, addresses 0x000 to 0xFFF (R7, R50). -/
abbrev Config.memSize : Nat := 4096

/-- `FONTBASE`: where the font table starts (R7, R56). -/
abbrev Config.fontBase : Nat := 0x050

/-- `PROGBASE`: the program load address and the initial `pc` (R7, R57, R231). -/
abbrev Config.progBase : Nat := 0x200

/-- `PROGMAX`: the largest program image, 4096 - 0x200 bytes (R7, R216). -/
abbrev Config.progMax : Nat := 3584

/-- `STACKDEPTH`: the entries of the return stack (R7, R29). -/
abbrev Config.stackDepth : Nat := 16

/-- `FLAGREG`: the number of the flag register `VF` (R7, R22). -/
abbrev Config.flagReg : Nibble := 0xF#4

/-- `FBW`: the columns of the framebuffer (R7, R33). -/
abbrev Config.fbWidth : Nat := 64

/-- `FBH`: the rows of the framebuffer (R7, R33). -/
abbrev Config.fbHeight : Nat := 32

/-- Glyphs 0 to 3 of the font table of R56. -/
def Config.fontLow : List Byte :=
  [0xF0, 0x90, 0x90, 0x90, 0xF0] ++ [0x20, 0x60, 0x20, 0x20, 0x70] ++
  [0xF0, 0x10, 0xF0, 0x80, 0xF0] ++ [0xF0, 0x10, 0xF0, 0x10, 0xF0]

/-- Glyphs 4 to 7 of the font table of R56. -/
def Config.fontMidLow : List Byte :=
  [0x90, 0x90, 0xF0, 0x10, 0x10] ++ [0xF0, 0x80, 0xF0, 0x10, 0xF0] ++
  [0xF0, 0x80, 0xF0, 0x90, 0xF0] ++ [0xF0, 0x10, 0x20, 0x40, 0x40]

/-- Glyphs 8 to B of the font table of R56. -/
def Config.fontMidHigh : List Byte :=
  [0xF0, 0x90, 0xF0, 0x90, 0xF0] ++ [0xF0, 0x90, 0xF0, 0x10, 0xF0] ++
  [0xF0, 0x90, 0xF0, 0x90, 0x90] ++ [0xE0, 0x90, 0xE0, 0x90, 0xE0]

/-- Glyphs C to F of the font table of R56. -/
def Config.fontHigh : List Byte :=
  [0xF0, 0x80, 0x80, 0x80, 0xF0] ++ [0xE0, 0x90, 0x90, 0x90, 0xE0] ++
  [0xF0, 0x80, 0xF0, 0x80, 0xF0] ++ [0xF0, 0x80, 0xF0, 0x80, 0x80]

/-- `FONT`: the 80 bytes placed at 0x050 to 0x09F by the reset (R56, D25, U13).
UNVERIFIED: the spec takes the bytes from general knowledge (G8); log entry 4. -/
def Config.font : List Byte :=
  Config.fontLow ++ Config.fontMidLow ++ Config.fontMidHigh ++ Config.fontHigh

/-- `FLAG_ORDER` (D10, U11): how add-reg, sub, subn, shr and shl order the flag write, the operand reads and the
result write.  `sequential`: flag first, each statement reading what the one before left (R128);
`latched`: every operand is read before any write and the flag is written last. -/
inductive FlagOrder where
  | sequential
  | latched
  deriving DecidableEq, Repr

/-- `OOB_POLICY` (D5, U3): what a data access above 0xFFF does.  `fault`: it raises `MemoryOutOfRange` (R58);
`wrap4096`: the address is taken modulo 4096. -/
inductive OobPolicy where
  | fault
  | wrap4096
  deriving DecidableEq, Repr

/-- `DRAW_EDGE` (D8, U6): what a set sprite bit outside the frame does.  `fault`: `DrawOutOfFrame` (R172);
`clip`: the pixel is dropped. -/
inductive DrawEdge where
  | fault
  | clip
  deriving DecidableEq, Repr

/-- The value this spec fixes for `FLAG_ORDER` (U11). -/
def Config.flagOrder : FlagOrder := .sequential

/-- The value this spec fixes for `OOB_POLICY` (U3). -/
def Config.oobPolicy : OobPolicy := .fault

/-- The value this spec fixes for `DRAW_EDGE` (U6). -/
def Config.drawEdge : DrawEdge := .fault

/-- FREE VALUE: the `k`-th byte that `RandomByte()` draws (R11, R134, D11, U10).  It has no body: nothing can be
proved of its value, so a claim holds for every random source.  Log entry 3. -/
opaque Config.freeRandomByte : Nat → Byte

end Sys2Proof
end

