-- ==== Sys2Proof/Syntax.lean ====
section
/-! DEFINITION. The 34 instructions of spec/opcode_table.json (30_encoding.md R88, R90), one constructor a row, in the
table's order.  The fields are R75's: `x`, `y` register numbers, `kk` an immediate byte, `nnn` an address, `n` a row
count.  A word that matches no row is a no-op (R83); it is no row of the table and so no constructor: see `Decoded` in
Decode.lean. -/

namespace Sys2Proof

/-- The instructions.  Each docstring gives the pattern and the rule of the row. -/
inductive Instr where
  /-- `0--0` clear-screen, R170. -/
  | clearScreen
  /-- `0--E` return, R100. -/
  | ret
  /-- `1nnn` jump, R101. -/
  | jump (nnn : Addr12)
  /-- `2nnn` call, R102. -/
  | call (nnn : Addr12)
  /-- `3xkk` skip-eq-const, R103. -/
  | skipEqConst (x : Nibble) (kk : Byte)
  /-- `4xkk` skip-neq-const, R104. -/
  | skipNeqConst (x : Nibble) (kk : Byte)
  /-- `5xy-` skip-eq-reg, R105. -/
  | skipEqReg (x y : Nibble)
  /-- `6xkk` load-const, R121. -/
  | loadConst (x : Nibble) (kk : Byte)
  /-- `7xkk` add-const, R122. -/
  | addConst (x : Nibble) (kk : Byte)
  /-- `8xy0` load-reg, R123. -/
  | loadReg (x y : Nibble)
  /-- `8xy1` or, R124. -/
  | orReg (x y : Nibble)
  /-- `8xy2` and, R125. -/
  | andReg (x y : Nibble)
  /-- `8xy3` xor, R126. -/
  | xorReg (x y : Nibble)
  /-- `8xy4` add-reg, R129. -/
  | addReg (x y : Nibble)
  /-- `8xy5` sub, R130. -/
  | sub (x y : Nibble)
  /-- `8x-6` shr, R132. -/
  | shr (x : Nibble)
  /-- `8xy7` subn, R131. -/
  | subn (x y : Nibble)
  /-- `8x-E` shl, R133. -/
  | shl (x : Nibble)
  /-- `9xy-` skip-neq-reg, R106. -/
  | skipNeqReg (x y : Nibble)
  /-- `Annn` load-index, R150. -/
  | loadIndex (nnn : Addr12)
  /-- `Bnnn` jump-offset, R107. -/
  | jumpOffset (nnn : Addr12)
  /-- `Cxkk` random, R134. -/
  | random (x : Nibble) (kk : Byte)
  /-- `Dxyn` draw, R172. -/
  | draw (x y n : Nibble)
  /-- `Ex-E` skip-key-pressed, R180. -/
  | skipKeyPressed (x : Nibble)
  /-- `Ex-1` skip-key-not-pressed, R181. -/
  | skipKeyNotPressed (x : Nibble)
  /-- `Fx07` load-delay, R183. -/
  | loadDelay (x : Nibble)
  /-- `Fx0A` wait-key, R182. -/
  | waitKey (x : Nibble)
  /-- `Fx15` set-delay, R184. -/
  | setDelay (x : Nibble)
  /-- `Fx18` set-sound, R185. -/
  | setSound (x : Nibble)
  /-- `Fx1E` add-index, R151. -/
  | addIndex (x : Nibble)
  /-- `Fx29` load-font-glyph, R152. -/
  | loadFontGlyph (x : Nibble)
  /-- `Fx33` store-bcd, R153. -/
  | storeBcd (x : Nibble)
  /-- `Fx55` store-regs, R154. -/
  | storeRegs (x : Nibble)
  /-- `Fx65` load-regs, R155. -/
  | loadRegs (x : Nibble)
  deriving DecidableEq, Repr

end Sys2Proof
end

