-- ==== Sys2Proof/WellFormed.lean ====
section
/-! DEFINITION. What makes an input meaningful.

Every operand of an instruction has the exact width of its field (30_encoding.md R75), and the spec reserves no value of
any field (10_state.md R21: every index names a register; R86: no encoding is illegal).  So every term of `Instr` is
well-formed: the types carry the check, and an ill-formed instruction cannot be written.  What the spec does check is
what the HOST passes in: a program image, a key number, a stack pointer (60_exceptions.md R216, R218, R221). -/

namespace Sys2Proof

/-- Well-formedness of an instruction.  R86: no operand value is reserved in any row, so there is nothing to refuse;
the match names every constructor, so a row with a restricted field could not slip past. -/
def Instr.wellFormed : Instr → Bool
  | .clearScreen | .ret => true
  | .jump _ | .call _ | .loadIndex _ | .jumpOffset _ => true
  | .skipEqConst _ _ | .skipNeqConst _ _ | .loadConst _ _ | .addConst _ _ | .random _ _ => true
  | .skipEqReg _ _ | .skipNeqReg _ _ => true
  | .loadReg _ _ | .orReg _ _ | .andReg _ _ | .xorReg _ _ | .addReg _ _ | .sub _ _ | .subn _ _ => true
  | .shr _ | .shl _ => true
  | .draw _ _ _ => true
  | .skipKeyPressed _ | .skipKeyNotPressed _ | .loadDelay _ | .waitKey _ | .setDelay _ | .setSound _ => true
  | .addIndex _ | .loadFontGlyph _ | .storeBcd _ | .storeRegs _ | .loadRegs _ => true

/-- A program image fits the program area (R216: at most 3584 bytes). -/
def programFits (image : List Byte) : Bool := decide (image.length ≤ Config.progMax)

/-- A key number the host may name (R218: `0 ≤ index < 16`). -/
def keyIndexOk (k : Nat) : Bool := decide (k < 16)

/-- A stack pointer the host may write (R221: 0 to 16). -/
def stackPointerOk (n : Nat) : Bool := decide (n ≤ Config.stackDepth)

end Sys2Proof
end

