-- ==== Sys2Proof/Decode.lean ====
section
/-! DEFINITION. The decoder of 30_encoding.md R75 to R90, total on every word and every list of bytes, and after it the
encoder.  The opcode values are the spec's (R90); most of them it takes from general knowledge (D19), log entry 5. -/

namespace Sys2Proof

/-! ## Bit fields and byte order -/

/-- The class `c = op[15:12]` (R12, R75). -/
def classOf (w : Word) : Nibble := w.extractLsb' 12 4

/-- The field `x = op[11:8]` (R12, R75). -/
def fieldX (w : Word) : Nibble := w.extractLsb' 8 4

/-- The field `y = op[7:4]` (R12, R75). -/
def fieldY (w : Word) : Nibble := w.extractLsb' 4 4

/-- The field `n = op[3:0]` (R12, R75), the secondary field of classes 0x0, 0x8 and 0xE. -/
def fieldN (w : Word) : Nibble := w.extractLsb' 0 4

/-- The field `kk = op[7:0]` (R12, R75), the secondary field of class 0xF. -/
def fieldKk (w : Word) : Byte := w.extractLsb' 0 8

/-- The field `nnn = op[11:0]` (R12, R75). -/
def fieldNnn (w : Word) : Addr12 := w.extractLsb' 0 12

/-- A word from its two bytes, high byte first (R52, R71). -/
def joinBytes (hi lo : Byte) : Word := hi ++ lo

/-- `op[15:8]`, the byte at the lower address (R71). -/
def highByte (w : Word) : Byte := w.extractLsb' 8 8

/-- `op[7:0]`, the byte at the higher address (R71). -/
def lowByte (w : Word) : Byte := w.extractLsb' 0 8

/-- A word as memory holds it (R52). -/
def wordBytes (w : Word) : List Byte := [highByte w, lowByte w]

/-! ## The decoder -/

/-- What a word decodes to (R86): one of the 34 instructions, or the no-op of R83, which keeps the word. -/
inductive Decoded where
  | instr (i : Instr)
  | noOp (w : Word)
  deriving DecidableEq, Repr

/-- Class 0x0, by its low nibble alone (R79). -/
def decodeClass0 (w : Word) : Decoded :=
  match (fieldN w).toNat with
  | 0x0 => .instr .clearScreen
  | 0xE => .instr .ret
  | _ => .noOp w

/-- Class 0x8, by its low nibble (R80). -/
def decodeClass8 (w : Word) : Decoded :=
  match (fieldN w).toNat with
  | 0x0 => .instr (.loadReg (fieldX w) (fieldY w))
  | 0x1 => .instr (.orReg (fieldX w) (fieldY w))
  | 0x2 => .instr (.andReg (fieldX w) (fieldY w))
  | 0x3 => .instr (.xorReg (fieldX w) (fieldY w))
  | 0x4 => .instr (.addReg (fieldX w) (fieldY w))
  | 0x5 => .instr (.sub (fieldX w) (fieldY w))
  | 0x6 => .instr (.shr (fieldX w))
  | 0x7 => .instr (.subn (fieldX w) (fieldY w))
  | 0xE => .instr (.shl (fieldX w))
  | _ => .noOp w

/-- Class 0xE, by its low nibble; `op[7:4]` is ignored (R81). -/
def decodeClassE (w : Word) : Decoded :=
  match (fieldN w).toNat with
  | 0xE => .instr (.skipKeyPressed (fieldX w))
  | 0x1 => .instr (.skipKeyNotPressed (fieldX w))
  | _ => .noOp w

/-- Class 0xF, by its low byte (R82); the debug range is a no-op (R84). -/
def decodeClassF (w : Word) : Decoded :=
  match (fieldKk w).toNat with
  | 0x07 => .instr (.loadDelay (fieldX w))
  | 0x0A => .instr (.waitKey (fieldX w))
  | 0x15 => .instr (.setDelay (fieldX w))
  | 0x18 => .instr (.setSound (fieldX w))
  | 0x1E => .instr (.addIndex (fieldX w))
  | 0x29 => .instr (.loadFontGlyph (fieldX w))
  | 0x33 => .instr (.storeBcd (fieldX w))
  | 0x55 => .instr (.storeRegs (fieldX w))
  | 0x65 => .instr (.loadRegs (fieldX w))
  | _ => .noOp w

/-- The primary decode, by the class (R78).  The last arm is class 0xF: a nibble has no value above it. -/
def decode (w : Word) : Decoded :=
  match (classOf w).toNat with
  | 0x0 => decodeClass0 w
  | 0x1 => .instr (.jump (fieldNnn w))
  | 0x2 => .instr (.call (fieldNnn w))
  | 0x3 => .instr (.skipEqConst (fieldX w) (fieldKk w))
  | 0x4 => .instr (.skipNeqConst (fieldX w) (fieldKk w))
  | 0x5 => .instr (.skipEqReg (fieldX w) (fieldY w))
  | 0x6 => .instr (.loadConst (fieldX w) (fieldKk w))
  | 0x7 => .instr (.addConst (fieldX w) (fieldKk w))
  | 0x8 => decodeClass8 w
  | 0x9 => .instr (.skipNeqReg (fieldX w) (fieldY w))
  | 0xA => .instr (.loadIndex (fieldNnn w))
  | 0xB => .instr (.jumpOffset (fieldNnn w))
  | 0xC => .instr (.random (fieldX w) (fieldKk w))
  | 0xD => .instr (.draw (fieldX w) (fieldY w) (fieldN w))
  | 0xE => decodeClassE w
  | _ => decodeClassF w

/-- Why a list of bytes holds no instruction word: the only reason there is (R74, R86). -/
inductive DecodeError where
  /-- Fewer than two bytes are left. -/
  | truncated
  deriving DecidableEq, Repr

/-- Decode from bytes in memory order (R71, R74): what the first word is, and the bytes after it. -/
def decodeBytes : List Byte → Except DecodeError (Decoded × List Byte)
  | hi :: lo :: rest => .ok (decode (joinBytes hi lo), rest)
  | _ => .error .truncated

/-- The instruction the decoder reads from the low `nbits` bits of `w`, numbered as spec/opcode_table.json numbers
them; none for a no-op word (R83). -/
def decodeTableWord (nbits w : Nat) : Option Instr :=
  match decodeBytes (wordBytes (BitVec.ofNat 16 (w % 2 ^ nbits))) with
  | .ok (.instr i, _) => some i
  | .ok (.noOp _, _) => none
  | .error _ => none

/-! ## The encoder -/

/-- A word from its four nibbles, the class first (R76). -/
def packNibbles (c x y n : Nibble) : Word := c ++ x ++ y ++ n

/-- A word of format XKK or XSS (R76). -/
def packXkk (c x : Nibble) (kk : Byte) : Word := c ++ x ++ kk

/-- A word of format A (R76). -/
def packNnn (c : Nibble) (nnn : Addr12) : Word := c ++ nnn

/-- The word of an instruction.  The nibbles the decoder ignores (R85) are those of the conventional words 0x00E0,
0x00EE, 0xEx9E and 0xExA1 (R79, R81), and 0 in 5xy-, 9xy-, 8x-6 and 8x-E: DESIGN CHOICE, log entry 7. -/
def encode : Instr → Word
  | .clearScreen => packNibbles 0x0 0x0 0xE 0x0
  | .ret => packNibbles 0x0 0x0 0xE 0xE
  | .jump nnn => packNnn 0x1 nnn
  | .call nnn => packNnn 0x2 nnn
  | .skipEqConst x kk => packXkk 0x3 x kk
  | .skipNeqConst x kk => packXkk 0x4 x kk
  | .skipEqReg x y => packNibbles 0x5 x y 0x0
  | .loadConst x kk => packXkk 0x6 x kk
  | .addConst x kk => packXkk 0x7 x kk
  | .loadReg x y => packNibbles 0x8 x y 0x0
  | .orReg x y => packNibbles 0x8 x y 0x1
  | .andReg x y => packNibbles 0x8 x y 0x2
  | .xorReg x y => packNibbles 0x8 x y 0x3
  | .addReg x y => packNibbles 0x8 x y 0x4
  | .sub x y => packNibbles 0x8 x y 0x5
  | .shr x => packNibbles 0x8 x 0x0 0x6
  | .subn x y => packNibbles 0x8 x y 0x7
  | .shl x => packNibbles 0x8 x 0x0 0xE
  | .skipNeqReg x y => packNibbles 0x9 x y 0x0
  | .loadIndex nnn => packNnn 0xA nnn
  | .jumpOffset nnn => packNnn 0xB nnn
  | .random x kk => packXkk 0xC x kk
  | .draw x y n => packNibbles 0xD x y n
  | .skipKeyPressed x => packNibbles 0xE x 0x9 0xE
  | .skipKeyNotPressed x => packNibbles 0xE x 0xA 0x1
  | .loadDelay x => packXkk 0xF x 0x07
  | .waitKey x => packXkk 0xF x 0x0A
  | .setDelay x => packXkk 0xF x 0x15
  | .setSound x => packXkk 0xF x 0x18
  | .addIndex x => packXkk 0xF x 0x1E
  | .loadFontGlyph x => packXkk 0xF x 0x29
  | .storeBcd x => packXkk 0xF x 0x33
  | .storeRegs x => packXkk 0xF x 0x55
  | .loadRegs x => packXkk 0xF x 0x65

/-- The bytes of an instruction, in memory order (R52). -/
def encodeBytes (i : Instr) : List Byte := wordBytes (encode i)

/-! ## The opcode map, as R90 tabulates it -/

/-- A row of the opcode map of R90: a word `w` belongs to it when `w &&& mask = value`; `reads` marks every bit the
decoder looks at, the operand fields included (R76, R85). -/
structure OpcodeRow where
  mask : Word
  value : Word
  reads : Word
  deriving DecidableEq, Repr

/-- The word belongs to the row (R90). -/
def OpcodeRow.covers (r : OpcodeRow) (w : Word) : Bool := w &&& r.mask == r.value

/-- The row of R90 (and of spec/opcode_table.json) of each instruction. -/
def opcodeRow : Instr → OpcodeRow
  | .clearScreen => ⟨0xF00F, 0x0000, 0xF00F⟩
  | .ret => ⟨0xF00F, 0x000E, 0xF00F⟩
  | .jump _ => ⟨0xF000, 0x1000, 0xFFFF⟩
  | .call _ => ⟨0xF000, 0x2000, 0xFFFF⟩
  | .skipEqConst _ _ => ⟨0xF000, 0x3000, 0xFFFF⟩
  | .skipNeqConst _ _ => ⟨0xF000, 0x4000, 0xFFFF⟩
  | .skipEqReg _ _ => ⟨0xF000, 0x5000, 0xFFF0⟩
  | .loadConst _ _ => ⟨0xF000, 0x6000, 0xFFFF⟩
  | .addConst _ _ => ⟨0xF000, 0x7000, 0xFFFF⟩
  | .loadReg _ _ => ⟨0xF00F, 0x8000, 0xFFFF⟩
  | .orReg _ _ => ⟨0xF00F, 0x8001, 0xFFFF⟩
  | .andReg _ _ => ⟨0xF00F, 0x8002, 0xFFFF⟩
  | .xorReg _ _ => ⟨0xF00F, 0x8003, 0xFFFF⟩
  | .addReg _ _ => ⟨0xF00F, 0x8004, 0xFFFF⟩
  | .sub _ _ => ⟨0xF00F, 0x8005, 0xFFFF⟩
  | .shr _ => ⟨0xF00F, 0x8006, 0xFF0F⟩
  | .subn _ _ => ⟨0xF00F, 0x8007, 0xFFFF⟩
  | .shl _ => ⟨0xF00F, 0x800E, 0xFF0F⟩
  | .skipNeqReg _ _ => ⟨0xF000, 0x9000, 0xFFF0⟩
  | .loadIndex _ => ⟨0xF000, 0xA000, 0xFFFF⟩
  | .jumpOffset _ => ⟨0xF000, 0xB000, 0xFFFF⟩
  | .random _ _ => ⟨0xF000, 0xC000, 0xFFFF⟩
  | .draw _ _ _ => ⟨0xF000, 0xD000, 0xFFFF⟩
  | .skipKeyPressed _ => ⟨0xF00F, 0xE00E, 0xFF0F⟩
  | .skipKeyNotPressed _ => ⟨0xF00F, 0xE001, 0xFF0F⟩
  | .loadDelay _ => ⟨0xF0FF, 0xF007, 0xFFFF⟩
  | .waitKey _ => ⟨0xF0FF, 0xF00A, 0xFFFF⟩
  | .setDelay _ => ⟨0xF0FF, 0xF015, 0xFFFF⟩
  | .setSound _ => ⟨0xF0FF, 0xF018, 0xFFFF⟩
  | .addIndex _ => ⟨0xF0FF, 0xF01E, 0xFFFF⟩
  | .loadFontGlyph _ => ⟨0xF0FF, 0xF029, 0xFFFF⟩
  | .storeBcd _ => ⟨0xF0FF, 0xF033, 0xFFFF⟩
  | .storeRegs _ => ⟨0xF0FF, 0xF055, 0xFFFF⟩
  | .loadRegs _ => ⟨0xF0FF, 0xF065, 0xFFFF⟩

end Sys2Proof
end

