-- ==== Sys2Proof/Machine/State.lean ====
section
/-! DEFINITION. The state of the block (10_state.md R20), its faults (60_exceptions.md R201) and the state after
`initialize()` (R40, R230).  Everything is plain data. -/

namespace Sys2Proof.Machine

/-- The six faults of R201.  Each records the fetch address `A` of the instruction and, but for the first, its word
`op` (R201).  A fault is TAKEN AS A NEXT STATE: R202 says what the state is after it (the state before the cycle with
only `status` changed), so no step of this model answers the Host's `fault` outcome; log entry 1.  SAFE: after a fault
the block does nothing (R202), so no false claim about a later step can be proved. -/
inductive Fault where
  /-- Code 1, raised by the fetch of any cycle with `pc > 0xFFE` (R203); records `pc`.  Safe. -/
  | fetchOutOfRange (pc : Word)
  /-- Code 2, raised by call with `SP = 16` (R102).  Safe. -/
  | stackOverflow (fetchedAt op : Word)
  /-- Code 3, raised by return with `SP = 0` (R100).  Safe. -/
  | stackUnderflow (fetchedAt op : Word)
  /-- Code 4, raised by draw, store-bcd, store-regs and load-regs when an address they touch is above 0xFFF; records
  the lowest such address, `max(I, 0x1000)` (R58, R153 to R155, R172).  Safe. -/
  | memoryOutOfRange (fetchedAt op address : Word)
  /-- Code 5, raised by skip-key-pressed and skip-key-not-pressed with `Vx > 15`; records `Vx` (R180, R181).  Safe. -/
  | keyIndexOutOfRange (fetchedAt op : Word) (key : Byte)
  /-- Code 6, raised by draw when a set sprite bit lands at column 64 or more or row 32 or more; records the first
  such cell in row-major order (R172).  Safe. -/
  | drawOutOfFrame (fetchedAt op : Word) (col row : Nat)
  deriving DecidableEq, Repr

/-- The code of a fault (R201). -/
def Fault.code : Fault → Nat
  | .fetchOutOfRange _ => 1
  | .stackOverflow _ _ => 2
  | .stackUnderflow _ _ => 3
  | .memoryOutOfRange _ _ _ => 4
  | .keyIndexOutOfRange _ _ _ => 5
  | .drawOutOfFrame _ _ _ _ => 6

/-- The reasons a step has no meaning.  No instruction of this model is refused. -/
inductive Refusal where
  /-- An instruction without a meaning yet, by its mnemonic in spec/opcode_table.json.  Raised by no arm of `exec`.
  Safe: the machine stops there. -/
  | notModelled (mnemonic : String)
  deriving DecidableEq, Repr

/-- The fault status (R35). -/
inductive Status where
  | running
  | faulted (reason : Fault)
  deriving DecidableEq, Repr

/-- `FB[col][row]`, `true` for on (R33). -/
abbrev Framebuffer := Vector (Vector Bool 32) 64

/-- The memory as data: the cells that differ from their reset contents, by rising address (`memWf` in Ops.lean). -/
abbrev Mem := List Host.Cell

/-- The state record of R20, in its order, and the model's own counter `draws`. -/
structure State where
  /-- General registers `V[0]` to `V[15]` (R21); `VF` is `V[15]` (R22). -/
  v : Vector Byte 16
  /-- Memory (R50). -/
  mem : Mem
  /-- Index register `I` (R28). -/
  index : Word
  /-- Program counter (R25). -/
  pc : Word
  /-- Return stack (R29). -/
  stack : Vector Word 16
  /-- Stack pointer `SP`, 0 to 16, the next free slot (R29). -/
  sp : Fin 17
  /-- Delay timer `DT` (R31). -/
  delay : Byte
  /-- Sound timer `ST` (R31). -/
  sound : Byte
  /-- Keypad `KEY`, `true` for pressed (R32). -/
  keypad : Vector Bool 16
  /-- Framebuffer (R33). -/
  fb : Framebuffer
  /-- Current opcode `op` (R34). -/
  op : Word
  /-- Fault status (R35). -/
  status : Status
  /-- THE MODEL'S OWN: how many random bytes have been drawn; it picks the next free value (D11; log entry 3). -/
  draws : Nat
  deriving DecidableEq, Repr

/-- The outcome of a meaning or a step. -/
abbrev Outcome := Host.Outcome State Fault Refusal

/-- The state after `initialize()` (R40, R230): memory lists nothing, so it reads as its reset contents; `draws` is
the model's own, DESIGN CHOICE 0 (log entry 3). -/
def State.reset : State where
  v := Vector.replicate 16 0
  mem := []
  index := 0
  pc := 0x200
  stack := Vector.replicate 16 0
  sp := 0
  delay := 0
  sound := 0
  keypad := Vector.replicate 16 false
  fb := Vector.replicate 64 (Vector.replicate 32 false)
  op := 0
  status := .running
  draws := 0

end Sys2Proof.Machine
end

