-- ==== Sys2Proof/Machine/Ops.lean ====
section
/-! DEFINITION. The named operations over registers, memory, stack, framebuffer and timers; fetching; and TAKING A
FAULT, the one shared operation for it (60_exceptions.md R202). -/

namespace Sys2Proof.Machine

/-! ## General registers (R21 to R24) -/

/-- Read `V[x]`. -/
def State.reg (s : State) (x : Nibble) : Byte := s.v[x.toNat]'x.isLt

/-- Write `V[x]`. -/
def State.setReg (s : State) (x : Nibble) (b : Byte) : State := { s with v := s.v.set x.toNat b x.isLt }

/-! ## Memory (20_memory.md R50 to R61) -/

/-- What an address reads as before anything is written to it: the font table at 0x050 to 0x09F, 0 elsewhere
(R40, R56). -/
def resetByte (a : Nat) : Byte :=
  if Config.fontBase ≤ a then Config.font.getD (a - Config.fontBase) 0 else 0

/-- The canonical form: addresses strictly rise, lie in memory, and no cell holds its reset contents. -/
abbrev memWf (m : Mem) : Prop :=
  m.Pairwise (fun p q => p.1 < q.1) ∧ ∀ p ∈ m, p.1 < Config.memSize ∧ p.2 ≠ resetByte p.1

/-- The byte at an address (R61): the listed cell, else the reset contents. -/
def memRead (m : Mem) (a : Nat) : Byte :=
  match m.find? (fun p => p.1 == a) with
  | some p => p.2
  | none => resetByte a

/-- Put a cell in its place among rising addresses, replacing the one already there. -/
def insertCell (a : Nat) (b : Byte) : Mem → Mem
  | [] => [(a, b)]
  | p :: rest =>
    if a < p.1 then (a, b) :: p :: rest
    else if a = p.1 then (a, b) :: rest
    else p :: insertCell a b rest

/-- Unlist an address. -/
def eraseCell (a : Nat) (m : Mem) : Mem := m.filter (fun p => p.1 != a)

/-- Write one byte (R55: it changes only that byte).  Writing the reset contents unlists the address.  An address
above 0xFFF names no byte (R50) and nothing is written: no instruction gets here with one, since each checks first
(R58); log entry 8. -/
def memWrite (m : Mem) (a : Nat) (b : Byte) : Mem :=
  if a < Config.memSize then (if b = resetByte a then eraseCell a m else insertCell a b m) else m

/-- The byte of the state's memory at an address. -/
def State.byteAt (s : State) (a : Nat) : Byte := memRead s.mem a

/-- Write bytes at consecutive plain addresses: how a program image is placed (R216). -/
def memWriteFrom (a : Nat) : List Byte → Mem → Mem
  | [], m => m
  | b :: bs, m => memWriteFrom (a + 1) bs (memWrite m a b)

/-! ## Return stack (R29, R30) -/

/-- Push, when there is room (R102). -/
def State.push (s : State) (w : Word) : Option State :=
  if h : s.sp.val < 16 then
    some { s with stack := s.stack.set s.sp.val w h, sp := ⟨s.sp.val + 1, by omega⟩ }
  else none

/-- Pop, when there is an entry (R100); the entry keeps its value. -/
def State.pop (s : State) : Option (Word × State) :=
  if h : 0 < s.sp.val then
    some (s.stack[s.sp.val - 1]'(by omega), { s with sp := ⟨s.sp.val - 1, by omega⟩ })
  else none

/-! ## Framebuffer (R33) -/

/-- A cell of the framebuffer by column and row, as a pair that may lie outside the frame. -/
abbrev Pixel := Nat × Nat

/-- The pixel is a cell of the frame (R33). -/
abbrev inFrame (p : Pixel) : Prop := p.1 < Config.fbWidth ∧ p.2 < Config.fbHeight

/-- Read a cell; a pixel outside the frame is no cell and reads as off (no instruction reads one). -/
def fbGet (fb : Framebuffer) (p : Pixel) : Bool :=
  if h : inFrame p then (fb[p.1]'h.1)[p.2]'h.2 else false

/-- Write a cell; outside the frame there is no cell to write. -/
def fbSet (fb : Framebuffer) (p : Pixel) (on : Bool) : Framebuffer :=
  if h : inFrame p then fb.set p.1 ((fb[p.1]'h.1).set p.2 on h.2) h.1 else fb

/-- Every cell off (R170). -/
def fbClear : Framebuffer := Vector.replicate 64 (Vector.replicate 32 false)

/-- The cell of the state's framebuffer at a column and a row. -/
def State.cell (s : State) (col row : Nat) : Bool := fbGet s.fb (col, row)

/-! ## Keypad (R32) -/

/-- `KEY[k]` for a key number of 0 to 15. -/
def State.key (s : State) (k : Fin 16) : Bool := s.keypad[k]

/-- The ascending scan of wait-key, in which the last pressed key wins (R182). -/
def State.scanKeys (s : State) : Option (Fin 16) :=
  (List.finRange 16).foldl (fun found k => if s.key k then some k else found) none

/-! ## Timers (R31, R190) -/

/-- One timer's step: down by one, saturating at zero (R190). -/
def tick (t : Byte) : Byte := if t = 0 then 0 else t - 1

/-- The timer step, the last of every cycle that does not fault (R190). -/
def State.timerStep (s : State) : State := { s with delay := tick s.delay, sound := tick s.sound }

/-! ## Random source (R11, R134, D11) -/

/-- Draw one byte: a free value, fresh each time (log entry 3). -/
def State.drawByte (s : State) : Byte × State :=
  (Config.freeRandomByte s.draws, { s with draws := s.draws + 1 })

/-! ## Taking a fault (R202), and there is no return from one (R207) -/

/-- The fetch address `A` of the instruction being executed: `pc` stands at `A + 2` (R72). -/
def State.fetchAddr (s : State) : Word := s.pc - 2

/-- TAKING A FAULT: `status` becomes Faulted with the reason, nothing else changes (R202). -/
def State.takeFault (s : State) (f : Fault) : State := { s with status := .faulted f }

/-- `raise f` (R11): the instruction ends with fault `f`, having written nothing else. -/
def raise (f : Fault) (s : State) : Outcome := .next (s.takeFault f)

/-! ## The parts of a cycle (30_encoding.md R70) -/

/-- The fetch stays inside memory: `pc ≤ 0xFFE` (R203). -/
abbrev State.fetchFits (s : State) : Prop := s.pc.toNat + 1 < Config.memSize

/-- The word at `pc`, high byte first (R71). -/
def State.fetchWord (s : State) : Word := joinBytes (s.byteAt s.pc.toNat) (s.byteAt (s.pc.toNat + 1))

/-- Latch `op` (R71) and advance `pc` by 2 (R72). -/
def State.beginCycle (s : State) : State := { s with op := s.fetchWord, pc := s.pc + 2 }

/-- The execute step of a word that matches no row: it changes nothing (R83, R84). -/
def execNoOp (_w : Word) (s : State) : Outcome := .next s

/-- The end of a cycle begun in `before` (R70, R190, R202): after an instruction that raised no fault, the timer step;
after a fault, the state before the cycle with only `status` changed. -/
def finishCycle (before : State) : Outcome → Outcome
  | .next t =>
    match t.status with
    | .running => .next t.timerStep
    | .faulted f => raise f before
  | .fault f => .fault f
  | .refused r => .refused r

end Sys2Proof.Machine
end

