-- ==== Sys2Proof/Machine/Operands.lean ====
section
/-! DEFINITION. The operand forms: immediates (30_encoding.md R77), the one addressing mode of memory, index plus
offset (42_index_memory.md, R54, R58), the blocks of bytes it reaches, and sprites (43_display.md R171). -/

namespace Sys2Proof.Machine

/-- `zext_16` of an immediate or a register (R77). -/
def zext16 {k : Nat} (v : BitVec k) : Word := v.setWidth 16

/-! ## Index plus offset -/

/-- The address of byte `k` from base `I`: `I + k` computed without wrap-around (R54); under `OOB_POLICY = wrap4096`
taken modulo 4096 (D5). -/
def dataAddress (policy : OobPolicy) (base : Word) (k : Nat) : Nat :=
  match policy with
  | .fault => base.toNat + k
  | .wrap4096 => (base.toNat + k) % Config.memSize

/-- Some address of the `count` bytes from `base` is above 0xFFF and the policy is to fault (R58, D5). -/
def rangeFaults (policy : OobPolicy) (base : Word) (count : Nat) : Bool :=
  match policy with
  | .fault => decide (0 < count ∧ Config.memSize < base.toNat + count)
  | .wrap4096 => false

/-- The lowest address above 0xFFF that such an access touches, `max(I, 0x1000)` (R201). -/
def firstOutOfRange (base : Word) : Word := if base.toNat < 0x1000 then 0x1000 else base

/-- Check all `count` addresses from `I` before any access (R58): raise `MemoryOutOfRange`, or go on. -/
def State.withDataRange (s : State) (count : Nat) (go : Outcome) : Outcome :=
  if rangeFaults Config.oobPolicy s.index count then
    raise (.memoryOutOfRange s.fetchAddr s.op (firstOutOfRange s.index)) s
  else go

/-- The address of byte `k` of the block at `I`, under the configured policy. -/
def State.dataAddr (s : State) (k : Nat) : Nat := dataAddress Config.oobPolicy s.index k

/-- The `count` bytes of the block at `I`, in order (R54). -/
def State.readBlock (s : State) (count : Nat) : List Byte :=
  (List.range count).map (fun k => s.byteAt (s.dataAddr k))

/-- Write bytes at index plus offset, in ascending order from offset `k` (R54). -/
def memWriteBlock (policy : OobPolicy) (base : Word) : Nat → List Byte → Mem → Mem
  | _, [], m => m
  | k, b :: bs, m => memWriteBlock policy base (k + 1) bs (memWrite m (dataAddress policy base k) b)

/-- Write the block at `I`; `I` itself is unchanged (R28, D16). -/
def State.writeBlock (s : State) (bytes : List Byte) : State :=
  { s with mem := memWriteBlock Config.oobPolicy s.index 0 bytes s.mem }

/-! ## Operands made from registers -/

/-- `V[0]` to `V[x]` (R154: inclusive). -/
def State.regsUpTo (s : State) (x : Nibble) : List Byte := s.v.toList.take (x.toNat + 1)

/-- The register file with `V[0]` to `V[x]` loaded from the block at `I` (R155: inclusive). -/
def State.loadedRegs (s : State) (x : Nibble) : Vector Byte 16 :=
  Vector.ofFn (fun k : Fin 16 => if k.val ≤ x.toNat then s.byteAt (s.dataAddr k.val) else s.v[k])

/-- Hundreds, tens and ones of a byte (R153). -/
def bcdDigits (b : Byte) : List Byte := [b / 100, b / 10 % 10, b % 10]

/-! ## Sprites -/

/-- The pixels that one row byte sets, left to right: bit `7 - c` is column offset `c` (R171).  Columns are not
reduced modulo 64 (R172). -/
def spriteRow (px row : Nat) (b : Byte) : List Pixel :=
  (List.range 8).filterMap (fun c => if b.getLsbD (7 - c) then some (px + c, row) else none)

/-- The pixels that a sprite sets, in row-major order (R172); rows are not reduced modulo 32. -/
def spritePixels (px : Nat) : Nat → List Byte → List Pixel
  | _, [] => []
  | py, b :: bs => spriteRow px py b ++ spritePixels px (py + 1) bs

/-- The start column and row, `(Vx mod 64, Vy mod 32)`, read before `VF` is reset (R172, D9). -/
def State.drawStart (s : State) (x y : Nibble) : Pixel :=
  ((s.reg x).toNat % Config.fbWidth, (s.reg y).toNat % Config.fbHeight)

/-- The pixels that `draw Vx, Vy, n` would set (R172). -/
def State.drawPixels (s : State) (x y n : Nibble) : List Pixel :=
  spritePixels (s.drawStart x y).1 (s.drawStart x y).2 (s.readBlock n.toNat)

end Sys2Proof.Machine
end

