-- ==== Sys2Proof/Machine/Flags.lean ====
section
/-! DEFINITION. Every flag the spec computes (10_state.md R36) and the order in which a flag and its result are written
(41_alu.md R128, D10). -/

namespace Sys2Proof.Machine

/-- A flag as `VF` holds it: 1 or 0. -/
def flagByte (b : Bool) : Byte := if b then 1 else 0

/-- The 9-bit sum of add-reg (R129). -/
def sum9 (a b : Byte) : BitVec 9 := a.setWidth 9 + b.setWidth 9

/-- add-reg: 1 if the sum exceeds 255 (R129). -/
def carryFlag (a b : Byte) : Byte := flagByte (decide (255 < (sum9 a b).toNat))

/-- sub: 1 if `Vx > Vy`, strictly (R130, C1). -/
def greaterFlag (a b : Byte) : Byte := flagByte (decide (b.toNat < a.toNat))

/-- subn: 1 if `Vx < Vy`, strictly (R131, C1). -/
def lessFlag (a b : Byte) : Byte := flagByte (decide (a.toNat < b.toNat))

/-- shr: the bit shifted out, `Vx & 1` (R132). -/
def shrFlag (a : Byte) : Byte := a &&& 1

/-- shl: the bit shifted out, `(Vx >> 7) & 1` (R133). -/
def shlFlag (a : Byte) : Byte := a >>> 7 &&& 1

/-- Write a flag to `VF` and a result to `Vx` (R128).  `sequential`: the flag first, the result computed from the
registers as the flag write left them, then written.  `latched` (the other value of D10): the result computed from
the registers before either write, the flag written last. -/
def State.writeFlagResult (order : FlagOrder) (flag : Byte) (x : Nibble) (result : State → Byte) (s : State) : State :=
  match order with
  | .sequential =>
    let flagged := s.setReg Config.flagReg flag
    flagged.setReg x (result flagged)
  | .latched => (s.setReg x (result s)).setReg Config.flagReg flag

/-- draw's collision flag: some pixel of the sprite is lit before it is toggled (R172). -/
def collisionFlag (hit : Bool) : Byte := flagByte hit

end Sys2Proof.Machine
end

