-- ==== Sys2Proof/Machine/Alu.lean ====
section
/-! DEFINITION. load-const, add-const, the nine class-0x8 instructions and random (41_alu.md).  All arithmetic is 8-bit
unsigned and wraps (R120). -/

namespace Sys2Proof.Machine

/-- R121. -/
def execLoadConst (x : Nibble) (kk : Byte) (s : State) : Outcome := .next (s.setReg x kk)

/-- R122: no flag. -/
def execAddConst (x : Nibble) (kk : Byte) (s : State) : Outcome := .next (s.setReg x (s.reg x + kk))

/-- R123. -/
def execLoadReg (x y : Nibble) (s : State) : Outcome := .next (s.setReg x (s.reg y))

/-- R124: `VF` is not cleared. -/
def execOrReg (x y : Nibble) (s : State) : Outcome := .next (s.setReg x (s.reg x ||| s.reg y))

/-- R125. -/
def execAndReg (x y : Nibble) (s : State) : Outcome := .next (s.setReg x (s.reg x &&& s.reg y))

/-- R126. -/
def execXorReg (x y : Nibble) (s : State) : Outcome := .next (s.setReg x (s.reg x ^^^ s.reg y))

/-- add-reg under a given `FLAG_ORDER`: the sum is formed before the flag is written, so it never reads the new flag
(R128, R129). -/
def State.addRegs (order : FlagOrder) (x y : Nibble) (s : State) : State :=
  s.writeFlagResult order (carryFlag (s.reg x) (s.reg y)) x (fun _ => (sum9 (s.reg x) (s.reg y)).setWidth 8)

/-- sub under a given `FLAG_ORDER` (R130). -/
def State.subRegs (order : FlagOrder) (x y : Nibble) (s : State) : State :=
  s.writeFlagResult order (greaterFlag (s.reg x) (s.reg y)) x (fun u => u.reg x - u.reg y)

/-- subn under a given `FLAG_ORDER` (R131). -/
def State.subnRegs (order : FlagOrder) (x y : Nibble) (s : State) : State :=
  s.writeFlagResult order (lessFlag (s.reg x) (s.reg y)) x (fun u => u.reg y - u.reg x)

/-- shr under a given `FLAG_ORDER` (R132). -/
def State.shrReg (order : FlagOrder) (x : Nibble) (s : State) : State :=
  s.writeFlagResult order (shrFlag (s.reg x)) x (fun u => u.reg x >>> 1)

/-- shl under a given `FLAG_ORDER` (R133). -/
def State.shlReg (order : FlagOrder) (x : Nibble) (s : State) : State :=
  s.writeFlagResult order (shlFlag (s.reg x)) x (fun u => u.reg x <<< 1)

/-- R129. -/
def execAddReg (x y : Nibble) (s : State) : Outcome := .next (s.addRegs Config.flagOrder x y)

/-- R130. -/
def execSub (x y : Nibble) (s : State) : Outcome := .next (s.subRegs Config.flagOrder x y)

/-- R132: `y` is ignored. -/
def execShr (x : Nibble) (s : State) : Outcome := .next (s.shrReg Config.flagOrder x)

/-- R131. -/
def execSubn (x y : Nibble) (s : State) : Outcome := .next (s.subnRegs Config.flagOrder x y)

/-- R133: `y` is ignored. -/
def execShl (x : Nibble) (s : State) : Outcome := .next (s.shlReg Config.flagOrder x)

/-- random with a drawn byte `r`: bitwise and with the mask (R134, C2). -/
def State.maskRandom (r : Byte) (x : Nibble) (kk : Byte) (s : State) : State := s.setReg x (r &&& kk)

/-- R134: one draw an execution. -/
def execRandom (x : Nibble) (kk : Byte) (s : State) : Outcome :=
  .next (s.drawByte.2.maskRandom s.drawByte.1 x kk)

end Sys2Proof.Machine
end

