-- ==== Sys2Proof/Machine/Control.lean ====
section
/-! DEFINITION. return, jump, call, the register and immediate skips, and jump-offset (40_control.md).  In every meaning
`pc` stands at the instruction's own address plus 2 (30_encoding.md R72). -/

namespace Sys2Proof.Machine

/-- A taken skip is a second 2-byte advance (R103). -/
def State.skipIf (s : State) (taken : Bool) : State := if taken then { s with pc := s.pc + 2 } else s

/-- `pc <- t`. -/
def State.jumpTo (s : State) (target : Word) : State := { s with pc := target }

/-- R100: fault on an empty stack, else pop into `pc`. -/
def execRet (s : State) : Outcome :=
  match s.pop with
  | none => raise (.stackUnderflow s.fetchAddr s.op) s
  | some (target, popped) => .next (popped.jumpTo target)

/-- R101. -/
def execJump (nnn : Addr12) (s : State) : Outcome := .next (s.jumpTo (zext16 nnn))

/-- R102: fault on a full stack, else push `pc` and jump. -/
def execCall (nnn : Addr12) (s : State) : Outcome :=
  match s.push s.pc with
  | none => raise (.stackOverflow s.fetchAddr s.op) s
  | some pushed => .next (pushed.jumpTo (zext16 nnn))

/-- R103. -/
def execSkipEqConst (x : Nibble) (kk : Byte) (s : State) : Outcome := .next (s.skipIf (s.reg x == kk))

/-- R104. -/
def execSkipNeqConst (x : Nibble) (kk : Byte) (s : State) : Outcome := .next (s.skipIf (s.reg x != kk))

/-- R105. -/
def execSkipEqReg (x y : Nibble) (s : State) : Outcome := .next (s.skipIf (s.reg x == s.reg y))

/-- R106. -/
def execSkipNeqReg (x y : Nibble) (s : State) : Outcome := .next (s.skipIf (s.reg x != s.reg y))

/-- R107: the sum is not reduced to 12 bits. -/
def execJumpOffset (nnn : Addr12) (s : State) : Outcome := .next (s.jumpTo (zext16 (s.reg 0) + zext16 nnn))

end Sys2Proof.Machine
end

