-- ==== Sys2Proof/Machine/Display.lean ====
section
/-! DEFINITION. clear-screen and draw (43_display.md). -/

namespace Sys2Proof.Machine

/-- R170. -/
def execClearScreen (s : State) : Outcome := .next { s with fb := fbClear }

/-- Toggle pixels one after another, noting whether any was lit when its turn came (R172). -/
def togglePixels : List Pixel → Framebuffer → Bool → Framebuffer × Bool
  | [], fb, hit => (fb, hit)
  | p :: ps, fb, hit => togglePixels ps (fbSet fb p (!fbGet fb p)) (hit || fbGet fb p)

/-- XOR the pixels onto the framebuffer and leave the collision in `VF` (R172). -/
def State.plot (s : State) (pixels : List Pixel) : State :=
  let drawn := togglePixels pixels s.fb false
  { s.setReg Config.flagReg (collisionFlag drawn.2) with fb := drawn.1 }

/-- The first pixel outside the frame, in row-major order (R172, R201). -/
def firstOutside (pixels : List Pixel) : Option Pixel := pixels.find? (fun p => !decide (inFrame p))

/-- Draw under a given `DRAW_EDGE`: `fault` checks every pixel before any is written (R172, D8); `clip` drops the
pixels outside the frame. -/
def State.plotAtEdge (edge : DrawEdge) (s : State) (pixels : List Pixel) : Outcome :=
  match edge with
  | .fault =>
    match firstOutside pixels with
    | some p => raise (.drawOutOfFrame s.fetchAddr s.op p.1 p.2) s
    | none => .next (s.plot pixels)
  | .clip => .next (s.plot (pixels.filter (fun p => decide (inFrame p))))

/-- R172: the memory range is checked before the frame (R204). -/
def execDraw (x y n : Nibble) (s : State) : Outcome :=
  s.withDataRange n.toNat (s.plotAtEdge Config.drawEdge (s.drawPixels x y n))

end Sys2Proof.Machine
end

