-- ==== Sys2Proof/Machine/IndexMemory.lean ====
section
/-! DEFINITION. load-index, add-index, load-font-glyph, store-bcd, store-regs and load-regs (42_index_memory.md). -/

namespace Sys2Proof.Machine

/-- `I <- w`. -/
def State.setIndex (s : State) (w : Word) : State := { s with index := w }

/-- R150. -/
def execLoadIndex (nnn : Addr12) (s : State) : Outcome := .next (s.setIndex (zext16 nnn))

/-- R151: modulo 65536, no flag, no fault. -/
def execAddIndex (x : Nibble) (s : State) : Outcome := .next (s.setIndex (s.index + zext16 (s.reg x)))

/-- R152: never rejected. -/
def execLoadFontGlyph (x : Nibble) (s : State) : Outcome :=
  .next (s.setIndex (BitVec.ofNat 16 Config.fontBase + 5 * zext16 (s.reg x)))

/-- R153. -/
def execStoreBcd (x : Nibble) (s : State) : Outcome :=
  s.withDataRange 3 (.next (s.writeBlock (bcdDigits (s.reg x))))

/-- R154. -/
def execStoreRegs (x : Nibble) (s : State) : Outcome :=
  s.withDataRange (x.toNat + 1) (.next (s.writeBlock (s.regsUpTo x)))

/-- R155. -/
def execLoadRegs (x : Nibble) (s : State) : Outcome :=
  s.withDataRange (x.toNat + 1) (.next { s with v := s.loadedRegs x })

end Sys2Proof.Machine
end

