-- ==== Sys2Proof/Machine/KeysTimers.lean ====
section
/-! DEFINITION. skip-key-pressed, skip-key-not-pressed, wait-key, load-delay, set-delay and set-sound
(44_keys_timers.md). -/

namespace Sys2Proof.Machine

/-- Look a key up by `Vx`: fault above 15, else go on with its entry (R180, R181, D7). -/
def State.withKey (s : State) (x : Nibble) (go : Bool → Outcome) : Outcome :=
  if h : (s.reg x).toNat < 16 then go (s.key ⟨(s.reg x).toNat, h⟩)
  else raise (.keyIndexOutOfRange s.fetchAddr s.op (s.reg x)) s

/-- R180. -/
def execSkipKeyPressed (x : Nibble) (s : State) : Outcome := s.withKey x (fun down => .next (s.skipIf down))

/-- R181. -/
def execSkipKeyNotPressed (x : Nibble) (s : State) : Outcome := s.withKey x (fun down => .next (s.skipIf (!down)))

/-- R182: with no key pressed `pc` goes back to the instruction itself. -/
def execWaitKey (x : Nibble) (s : State) : Outcome :=
  match s.scanKeys with
  | some k => .next (s.setReg x (BitVec.ofNat 8 k.val))
  | none => .next (s.jumpTo (s.pc - 2))

/-- R183: the value before this cycle's timer step. -/
def execLoadDelay (x : Nibble) (s : State) : Outcome := .next (s.setReg x s.delay)

/-- R184. -/
def execSetDelay (x : Nibble) (s : State) : Outcome := .next { s with delay := s.reg x }

/-- R185. -/
def execSetSound (x : Nibble) (s : State) : Outcome := .next { s with sound := s.reg x }

end Sys2Proof.Machine
end

