-- ==== Sys2Proof/Machine/Dispatch.lean ====
section
/-! DEFINITION. Dispatch (30_encoding.md R73): one arm per instruction, one direct call of its meaning.  The state given
is the one after fetch and advance: `op` holds the word and `pc` stands at its address plus 2 (R72). -/

namespace Sys2Proof.Machine

def exec (i : Instr) (s : State) : Host.Outcome State Fault Refusal :=
  match i with
  | .clearScreen => Sys2Proof.Machine.execClearScreen s
  | .ret => Sys2Proof.Machine.execRet s
  | .jump nnn => Sys2Proof.Machine.execJump nnn s
  | .call nnn => Sys2Proof.Machine.execCall nnn s
  | .skipEqConst x kk => Sys2Proof.Machine.execSkipEqConst x kk s
  | .skipNeqConst x kk => Sys2Proof.Machine.execSkipNeqConst x kk s
  | .skipEqReg x y => Sys2Proof.Machine.execSkipEqReg x y s
  | .loadConst x kk => Sys2Proof.Machine.execLoadConst x kk s
  | .addConst x kk => Sys2Proof.Machine.execAddConst x kk s
  | .loadReg x y => Sys2Proof.Machine.execLoadReg x y s
  | .orReg x y => Sys2Proof.Machine.execOrReg x y s
  | .andReg x y => Sys2Proof.Machine.execAndReg x y s
  | .xorReg x y => Sys2Proof.Machine.execXorReg x y s
  | .addReg x y => Sys2Proof.Machine.execAddReg x y s
  | .sub x y => Sys2Proof.Machine.execSub x y s
  | .shr x => Sys2Proof.Machine.execShr x s
  | .subn x y => Sys2Proof.Machine.execSubn x y s
  | .shl x => Sys2Proof.Machine.execShl x s
  | .skipNeqReg x y => Sys2Proof.Machine.execSkipNeqReg x y s
  | .loadIndex nnn => Sys2Proof.Machine.execLoadIndex nnn s
  | .jumpOffset nnn => Sys2Proof.Machine.execJumpOffset nnn s
  | .random x kk => Sys2Proof.Machine.execRandom x kk s
  | .draw x y n => Sys2Proof.Machine.execDraw x y n s
  | .skipKeyPressed x => Sys2Proof.Machine.execSkipKeyPressed x s
  | .skipKeyNotPressed x => Sys2Proof.Machine.execSkipKeyNotPressed x s
  | .loadDelay x => Sys2Proof.Machine.execLoadDelay x s
  | .waitKey x => Sys2Proof.Machine.execWaitKey x s
  | .setDelay x => Sys2Proof.Machine.execSetDelay x s
  | .setSound x => Sys2Proof.Machine.execSetSound x s
  | .addIndex x => Sys2Proof.Machine.execAddIndex x s
  | .loadFontGlyph x => Sys2Proof.Machine.execLoadFontGlyph x s
  | .storeBcd x => Sys2Proof.Machine.execStoreBcd x s
  | .storeRegs x => Sys2Proof.Machine.execStoreRegs x s
  | .loadRegs x => Sys2Proof.Machine.execLoadRegs x s

end Sys2Proof.Machine
end

