-- ==== Sys2Proof/Machine/Step.lean ====
section
/-! DEFINITION. One cycle (30_encoding.md R70): fetch, advance, dispatch, timer step. -/

namespace Sys2Proof.Machine

/-- The execute step of a decoded word (R73): one instruction's meaning, or the no-op (R83). -/
def executeDecoded (d : Decoded) (s : State) : Outcome :=
  match d with
  | .instr i => exec i s
  | .noOp w => execNoOp w s

/-- `cycle()` (R70).  A faulted block does nothing (R202). -/
def step (s : State) : Host.Outcome State Fault Refusal :=
  match s.status with
  | .faulted _ => .next s
  | .running =>
    if s.fetchFits then finishCycle s (executeDecoded (decode s.fetchWord) s.beginCycle)
    else raise (.fetchOutOfRange s.pc) s

/-- `s` with an instruction word stored where the next step fetches.  What the fetch needs beside the two bytes is set
too: `status` Running (a faulted block fetches nothing, R70) and a `pc` it can fetch from (R203): where `pc` is above
0xFFE it is put at the program base.  Log entry 9. -/
def State.withFetchWord (s : State) (nbits w : Nat) : State :=
  let at' : Word := if s.fetchFits then s.pc else BitVec.ofNat 16 Config.progBase
  { s with
    pc := at'
    status := .running
    mem := memWriteFrom at'.toNat (wordBytes (BitVec.ofNat 16 (w % 2 ^ nbits))) s.mem }

end Sys2Proof.Machine
end

