-- ==== Sys2Proof/Machine/HostOps.lean ====
section
/-! DEFINITION. The host operations of 00_scope.md R8, which act only between cycles (60_exceptions.md R215): they are no
part of `step`, and a claim about a run says when the host acts. -/

namespace Sys2Proof.Machine

/-- Why a host operation is refused; a refused operation changes no state and is reported to the caller. -/
inductive HostRefusal where
  /-- A program image of more than 3584 bytes (R216). -/
  | capacity (length : Nat)
  /-- A key number outside 0 to 15 (R218). -/
  | keyIndex (k : Nat)
  /-- A stack pointer outside 0 to 16 (R221). -/
  | stackPointer (n : Nat)
  /-- A raw write of Running to `status` while the block is Faulted: only `initialize()` leaves Faulted (R35, R207).
  Every other write of `status` is done (R37, R221).  DEDUCED, log entry 10. -/
  | faultLatched
  deriving DecidableEq, Repr

/-- The outcome of a host operation: done, with the state it leaves, or refused. -/
inductive HostResult where
  | done (s : State)
  | refused (why : HostRefusal)
  deriving DecidableEq, Repr

/-- `initialize()` (R230): the reset state, from any state.  The model's own counter `draws` goes on, so that a second
session does not see the first one's random bytes again (log entry 3). -/
def hostInit (s : State) : State := { State.reset with draws := s.draws }

/-- `loadProgram(bytes)` (R216): the image at 0x200 and nothing else, or refused. -/
def hostLoadProgram (image : List Byte) (s : State) : HostResult :=
  if programFits image then .done { s with mem := memWriteFrom Config.progBase image s.mem }
  else .refused (.capacity image.length)

/-- Write one keypad entry, or refuse its number (R217, R218). -/
def hostSetKeyTo (k : Nat) (pressed : Bool) (s : State) : HostResult :=
  if h : k < 16 then .done { s with keypad := s.keypad.set k pressed h } else .refused (.keyIndex k)

/-- `setKey(k)` (R217). -/
def hostSetKey (k : Nat) (s : State) : HostResult := hostSetKeyTo k true s

/-- `clearKey(k)` (R217). -/
def hostClearKey (k : Nat) (s : State) : HostResult := hostSetKeyTo k false s

/-- The framebuffer read (R219). -/
def hostReadFramebuffer (s : State) : Framebuffer := s.fb

/-- The sound timer read (R220). -/
def hostReadSound (s : State) : Byte := s.sound

/-- The fault status read (R8, R206). -/
def hostReadStatus (s : State) : Status := s.status

/-- A raw field access (R221): which field, and the value of the field's width.  Reading a field is reading `State`. -/
inductive HostField where
  | reg (x : Nibble) (b : Byte)
  | byte (a : Addr12) (b : Byte)
  | index (w : Word)
  | pc (w : Word)
  | stackEntry (k : Fin 16) (w : Word)
  | sp (n : Nat)
  | delay (b : Byte)
  | sound (b : Byte)
  | key (k : Fin 16) (pressed : Bool)
  | cell (col : Fin 64) (row : Fin 32) (on : Bool)
  | op (w : Word)
  | status (st : Status)
  deriving DecidableEq, Repr

/-- The raw write of a field (R221). -/
def hostWrite (f : HostField) (s : State) : HostResult :=
  match f with
  | .reg x b => .done (s.setReg x b)
  | .byte a b => .done { s with mem := memWrite s.mem a.toNat b }
  | .index w => .done { s with index := w }
  | .pc w => .done { s with pc := w }
  | .stackEntry k w => .done { s with stack := s.stack.set k.val w k.isLt }
  | .sp n => if h : n ≤ Config.stackDepth then .done { s with sp := ⟨n, Nat.lt_succ_of_le h⟩ } else .refused (.stackPointer n)
  | .delay b => .done { s with delay := b }
  | .sound b => .done { s with sound := b }
  | .key k pressed => .done { s with keypad := s.keypad.set k.val pressed k.isLt }
  | .cell col row on => .done { s with fb := fbSet s.fb (col.val, row.val) on }
  | .op w => .done { s with op := w }
  | .status st =>
    match s.status, st with
    | .faulted _, .running => .refused .faultLatched
    | _, _ => .done { s with status := st }

end Sys2Proof.Machine
end

