-- ==== Sys2Proof/Safety.lean ====
section
/-! DEFINITION. The terms claims are made in: the end conditions of 60_exceptions.md R222, what a safe run is, what a
fault records (R201), footprints (what an instruction may change), and the invariants of the machine. -/

namespace Sys2Proof.Machine

/-! ## End conditions and safe runs -/

/-- R222: the block has stopped for good. -/
abbrev State.isFaulted (s : State) : Prop := s.status ≠ .running

/-- R222: `status` is Running and the word at `pc` is a jump to itself. -/
def State.parked (s : State) : Prop :=
  s.status = .running ∧ s.fetchFits ∧ ∃ nnn : Addr12, decode s.fetchWord = .instr (.jump nnn) ∧ zext16 nnn = s.pc

/-- A run of `k` cycles from `s` with no host operation between them ends in a state that is not faulted. -/
def runsSafely (k : Nat) (s : State) : Prop :=
  ∃ t : State, Host.Core.run Sys2Proof.core k s = .next t ∧ t.status = .running

/-! ## What a fault records (R201) -/

/-- The fetch address `A` of the instruction; for a fetch fault it is the `pc` that could not be fetched from. -/
def Fault.fetchedAt : Fault → Word
  | .fetchOutOfRange pc => pc
  | .stackOverflow a _ | .stackUnderflow a _ => a
  | .memoryOutOfRange a _ _ => a
  | .keyIndexOutOfRange a _ _ => a
  | .drawOutOfFrame a _ _ _ => a

/-- The instruction's word, but for a fetch fault, which has none. -/
def Fault.word : Fault → Option Word
  | .fetchOutOfRange _ => none
  | .stackOverflow _ op | .stackUnderflow _ op => some op
  | .memoryOutOfRange _ op _ => some op
  | .keyIndexOutOfRange _ op _ => some op
  | .drawOutOfFrame _ op _ _ => some op

/-- How many bytes from `I` upwards an instruction accesses (R54). -/
def bytesAccessed : Instr → Nat
  | .draw _ _ n => n.toNat
  | .storeBcd _ => 3
  | .storeRegs x | .loadRegs x => x.toNat + 1
  | .loadConst _ _ | .addConst _ _ | .random _ _ => 0
  | .loadReg _ _ | .orReg _ _ | .andReg _ _ | .xorReg _ _ => 0
  | .addReg _ _ | .sub _ _ | .subn _ _ | .shr _ | .shl _ => 0
  | .clearScreen | .ret | .jump _ | .call _ | .jumpOffset _ => 0
  | .skipEqConst _ _ | .skipNeqConst _ _ | .skipEqReg _ _ | .skipNeqReg _ _ => 0
  | .skipKeyPressed _ | .skipKeyNotPressed _ | .waitKey _ => 0
  | .loadDelay _ | .setDelay _ | .setSound _ => 0
  | .loadIndex _ | .addIndex _ | .loadFontGlyph _ => 0

/-- Some address that the instruction accesses is above 0xFFF (R58, R201). -/
def State.accessLeavesMemory (s : State) (i : Instr) : Prop :=
  0 < bytesAccessed i ∧ 0x1000 < s.index.toNat + bytesAccessed i

/-- The condition of R201 under which the fault is raised, read off the state it is precise about: which instruction
the word at `pc` must be, and what must hold for it. -/
def Fault.condition (s : State) : Fault → Prop
  | .fetchOutOfRange _ => 0xFFE < s.pc.toNat
  | .stackOverflow _ _ => (∃ nnn, decode s.fetchWord = .instr (.call nnn)) ∧ s.sp.val = 16
  | .stackUnderflow _ _ => decode s.fetchWord = .instr .ret ∧ s.sp.val = 0
  | .memoryOutOfRange _ _ address =>
    address.toNat = max s.index.toNat 0x1000 ∧ ∃ i, decode s.fetchWord = .instr i ∧ s.accessLeavesMemory i
  | .keyIndexOutOfRange _ _ key =>
    15 < key.toNat ∧ ∃ x, s.reg x = key ∧
      (decode s.fetchWord = .instr (.skipKeyPressed x) ∨ decode s.fetchWord = .instr (.skipKeyNotPressed x))
  | .drawOutOfFrame _ _ col row =>
    ∃ x y n, decode s.fetchWord = .instr (.draw x y n) ∧ ¬ s.accessLeavesMemory (.draw x y n) ∧
      (s.drawPixels x y n).find? (fun p => decide (64 ≤ p.1 ∨ 32 ≤ p.2)) = some (col, row)

/-! ## Footprints -/

/-- What an instruction may change; everything a footprint does not name stays as it was.  The defaults name
nothing. -/
structure Footprint where
  /-- The registers it may write. -/
  regs : List Nibble := []
  /-- The addresses it may store to. -/
  stored : List Nat := []
  index : Bool := false
  pc : Bool := false
  /-- The entries of the return stack it may write. -/
  stackEntries : List Nat := []
  sp : Bool := false
  delay : Bool := false
  sound : Bool := false
  cells : Bool := false
  status : Bool := false
  draws : Bool := false

/-- `t` differs from `s` at most where the footprint allows.  The keypad and `op` no instruction may change (R32, R34),
so no footprint names them. -/
structure OnlyChanges (f : Footprint) (s t : State) : Prop where
  regs : ∀ x, x ∉ f.regs → t.reg x = s.reg x
  bytes : ∀ a, a ∉ f.stored → t.byteAt a = s.byteAt a
  index : f.index = false → t.index = s.index
  pc : f.pc = false → t.pc = s.pc
  stack : ∀ (k : Nat) (h : k < 16), k ∉ f.stackEntries → t.stack[k] = s.stack[k]
  sp : f.sp = false → t.sp = s.sp
  delay : f.delay = false → t.delay = s.delay
  sound : f.sound = false → t.sound = s.sound
  keypad : t.keypad = s.keypad
  cells : f.cells = false → ∀ col row, t.cell col row = s.cell col row
  op : t.op = s.op
  status : f.status = false → t.status = s.status
  draws : f.draws = false → t.draws = s.draws

/-- The registers `V[0]` to `V[x]` (R154, R155: inclusive). -/
def regsThrough (x : Nibble) : List Nibble := (List.range (x.toNat + 1)).map (BitVec.ofNat 4)

/-- The registers an instruction may write, as R24 tabulates them. -/
def registersWritten : Instr → List Nibble
  | .loadConst x _ | .addConst x _ | .random x _ => [x]
  | .loadReg x _ | .orReg x _ | .andReg x _ | .xorReg x _ => [x]
  | .addReg x _ | .sub x _ | .subn x _ => [Config.flagReg, x]
  | .shr x | .shl x => [Config.flagReg, x]
  | .draw _ _ _ => [Config.flagReg]
  | .loadDelay x | .waitKey x => [x]
  | .loadRegs x => regsThrough x
  | .clearScreen | .ret | .jump _ | .call _ | .jumpOffset _ | .loadIndex _ => []
  | .skipEqConst _ _ | .skipNeqConst _ _ | .skipEqReg _ _ | .skipNeqReg _ _ => []
  | .skipKeyPressed _ | .skipKeyNotPressed _ | .setDelay _ | .setSound _ => []
  | .addIndex _ | .loadFontGlyph _ | .storeBcd _ | .storeRegs _ => []

/-- The addresses an instruction may store to, as R54 tabulates them, from the state it executes in. -/
def addressesStored (s : State) : Instr → List Nat
  | .storeBcd _ => (List.range 3).map s.dataAddr
  | .storeRegs x => (List.range (x.toNat + 1)).map s.dataAddr
  | .loadConst _ _ | .addConst _ _ | .random _ _ => []
  | .loadReg _ _ | .orReg _ _ | .andReg _ _ | .xorReg _ _ => []
  | .addReg _ _ | .sub _ _ | .subn _ _ | .shr _ | .shl _ => []
  | .draw _ _ _ | .clearScreen => []
  | .ret | .jump _ | .call _ | .jumpOffset _ => []
  | .skipEqConst _ _ | .skipNeqConst _ _ | .skipEqReg _ _ | .skipNeqReg _ _ => []
  | .skipKeyPressed _ | .skipKeyNotPressed _ | .waitKey _ => []
  | .loadDelay _ | .setDelay _ | .setSound _ => []
  | .loadIndex _ | .addIndex _ | .loadFontGlyph _ | .loadRegs _ => []

/-- Everything an instruction that raises no fault may change, from the state it executes in: the registers of R24, the
stores of R54, `pc` by R26, `I` by R28, the stack by R29, the timers by R31, the framebuffer by R33. -/
def footprint (s : State) (i : Instr) : Footprint :=
  let base : Footprint := { regs := registersWritten i, stored := addressesStored s i }
  match i with
  | .clearScreen | .draw _ _ _ => { base with cells := true }
  | .ret => { base with pc := true, sp := true }
  | .call _ => { base with pc := true, sp := true, stackEntries := [s.sp.val] }
  | .jump _ | .jumpOffset _ => { base with pc := true }
  | .skipEqConst _ _ | .skipNeqConst _ _ | .skipEqReg _ _ | .skipNeqReg _ _ => { base with pc := true }
  | .skipKeyPressed _ | .skipKeyNotPressed _ | .waitKey _ => { base with pc := true }
  | .loadIndex _ | .addIndex _ | .loadFontGlyph _ => { base with index := true }
  | .setDelay _ => { base with delay := true }
  | .setSound _ => { base with sound := true }
  | .random _ _ => { base with draws := true }
  | .loadConst _ _ | .addConst _ _ | .loadReg _ _ | .orReg _ _ | .andReg _ _ | .xorReg _ _ => base
  | .addReg _ _ | .sub _ _ | .subn _ _ | .shr _ | .shl _ => base
  | .loadDelay _ | .storeBcd _ | .storeRegs _ | .loadRegs _ => base

/-! ## Encodings in statements -/

/-- Every word of a row of R90, given by its mask and match value, decodes as the instruction `mk` builds from it. -/
def decodesAs (mask value : Word) (mk : Word → Instr) : Prop :=
  ∀ w : Word, w &&& mask = value → decode w = .instr (mk w)

/-! ## Invariants -/

/-- The memory is in its canonical form. -/
abbrev State.memoryCanonical (s : State) : Prop := memWf s.mem

/-- No run leaves `pc` above 0x10FE, jump-offset's largest target (R107), or a return address above 0x1000, the
advance past a call at 0xFFE (R72, R102). -/
def State.addressesBounded (s : State) : Prop :=
  s.pc.toNat ≤ 0x10FE ∧ ∀ (k : Nat) (h : k < 16), (s.stack[k]).toNat ≤ 0x1000

/-- A Faulted status tells the truth about the state it stands in (R201, R202). -/
def State.faultAccounted (s : State) : Prop :=
  ∀ f, s.status = .faulted f →
    f.fetchedAt = s.pc ∧ (∀ w, f.word = some w → s.fetchFits ∧ w = s.fetchWord) ∧ f.condition s

end Sys2Proof.Machine
end

