-- ==== Sys2Proof/Certificates/Slice0/Obligations.lean ====
section
/-! DEFINITION. The statements for the provers, in the order of spec/'s files.  Each docstring says which rule a
statement formalises; where a clause rests on a choice of the model it names the log entry. -/

open Sys2Proof Sys2Proof.Machine

/-! ## Reset and state (10_state.md, 70_reset_and_hazards.md) -/

/-- R40: every field after `initialize()`.  (R40 rests on D13 for `op` and on D2 for `status`.) -/
def Obligations.ResetLeavesEveryFieldAsTabulated : Prop :=
  (∀ x, State.reset.reg x = 0) ∧
  (∀ a, a < 0x050 → State.reset.byteAt a = 0) ∧
  Config.font.length = 80 ∧
  (∀ (k : Nat) (h : k < Config.font.length), State.reset.byteAt (0x050 + k) = Config.font[k]) ∧
  (∀ a, 0x0A0 ≤ a → a ≤ 0xFFF → State.reset.byteAt a = 0) ∧
  State.reset.index = 0 ∧ State.reset.pc = 0x200 ∧
  (∀ (k : Nat) (h : k < 16), State.reset.stack[k] = 0) ∧ State.reset.sp.val = 0 ∧
  State.reset.delay = 0 ∧ State.reset.sound = 0 ∧
  (∀ k, State.reset.key k = false) ∧ (∀ col row, State.reset.cell col row = false) ∧
  State.reset.op = 0 ∧ State.reset.status = .running

/-- R56 with R152: wherever the font region reads as reset left it, whatever else memory holds, load-font-glyph of a
digit points `I` at that digit's five rows.  The bytes are the spec's, which takes them from general knowledge (log entry 4). -/
def Obligations.FontGlyphIsFoundForEveryDigit : Prop :=
  ∀ (x : Nibble) (s : State) (d : Nat),
    (∀ (k : Nat) (h : k < Config.font.length), s.byteAt (0x050 + k) = Config.font[k]) → (s.reg x).toNat = d → d < 16 →
    ∃ t, exec (.loadFontGlyph x) s = .next t ∧ t.readBlock 5 = (Config.font.drop (5 * d)).take 5 ∧
      (d = 0 → t.readBlock 5 = [0xF0, 0x90, 0x90, 0x90, 0xF0]) ∧
      (d = 5 → t.readBlock 5 = [0xF0, 0x80, 0xF0, 0x10, 0xF0]) ∧
      (d = 15 → t.readBlock 5 = [0xF0, 0x80, 0xF0, 0x80, 0x80])

/-! ## Encoding (30_encoding.md) -/

/-- R75: each field is the bits the table gives it. -/
def Obligations.FieldsAreTheBitsOfTheWord : Prop :=
  ∀ w : Word,
    (classOf w).toNat = w.toNat / 4096 ∧ (fieldX w).toNat = w.toNat / 256 % 16 ∧
    (fieldY w).toNat = w.toNat / 16 % 16 ∧ (fieldN w).toNat = w.toNat % 16 ∧
    (fieldKk w).toNat = w.toNat % 256 ∧ (fieldNnn w).toNat = w.toNat % 4096

/-- The four words the source confirms, and words of 95_test_vectors.md: of its decode table (L2-6) and of rows T22
(0x912F), T60 (0x8126), T112 (0x0120) and T113 (0xD125).  Each class with ignored bits (R85) has a word in which they
are not the conventional ones. -/
def Obligations.SampleWordsDecodeAsListed : Prop :=
  decode 0x600A = .instr (.loadConst 0x0 0x0A) ∧ decode 0x8015 = .instr (.sub 0x0 0x1) ∧
  decode 0x2204 = .instr (.call 0x204) ∧ decode 0x00EE = .instr .ret ∧
  decode 0x0000 = .instr .clearScreen ∧ decode 0x0120 = .instr .clearScreen ∧ decode 0x0FFE = .instr .ret ∧ decode 0x0123 = .noOp 0x0123 ∧
  decode 0x5121 = .instr (.skipEqReg 0x1 0x2) ∧ decode 0x912F = .instr (.skipNeqReg 0x1 0x2) ∧
  decode 0x8126 = .instr (.shr 0x1) ∧ decode 0x812E = .instr (.shl 0x1) ∧ decode 0x8008 = .noOp 0x8008 ∧
  decode 0xD125 = .instr (.draw 0x1 0x2 0x5) ∧ decode 0xE1AE = .instr (.skipKeyPressed 0x1) ∧
  decode 0xE1A1 = .instr (.skipKeyNotPressed 0x1) ∧ decode 0xF10A = .instr (.waitKey 0x1) ∧
  decode 0xF0FF = .noOp 0xF0FF

/-- Decoding the encoding of any well-formed instruction gives it back, in words and in bytes with any bytes after
them. -/
def Obligations.DecodeInvertsEncode : Prop :=
  ∀ i : Instr, i.wellFormed = true →
    decode (encode i) = .instr i ∧
    ∀ rest, decodeBytes (encodeBytes i ++ rest) = .ok (.instr i, rest)

/-- R90's closing sentence: a word decodes as the row it belongs to; a word of no row is a no-op; two rows that share a
word are one row. -/
def Obligations.DecodeFollowsTheOpcodeMap : Prop :=
  (∀ w i, decode w = .instr i → (opcodeRow i).covers w = true) ∧
  (∀ w i, (opcodeRow i).covers w = true → ∃ j, decode w = .instr j ∧ opcodeRow j = opcodeRow i) ∧
  (∀ w, decode w = .noOp w ↔ ∀ i, (opcodeRow i).covers w = false) ∧
  (∀ w i j, (opcodeRow i).covers w = true → (opcodeRow j).covers w = true → opcodeRow i = opcodeRow j)

/-- R85: the decoder reads exactly the bits `reads` marks: the encoder restores all of them, and words that agree on
them decode alike. -/
def Obligations.IgnoredBitsDoNotMatter : Prop :=
  ∀ w i, decode w = .instr i →
    encode i &&& (opcodeRow i).reads = w &&& (opcodeRow i).reads ∧
    ∀ w', w' &&& (opcodeRow i).reads = w &&& (opcodeRow i).reads → decode w' = .instr i

/-! ## The cycle (30_encoding.md R70 to R73, R83) -/

/-- R70, R73: where the bytes at `pc` decode to an instruction, the step is `exec` of it on the state with `op` latched
and `pc` advanced by 2, followed by the timer step, or, if it raised a fault, undone but for `status`. -/
def Obligations.StepRunsTheDecodedInstruction : Prop :=
  ∀ (s : State) (i : Instr), s.status = .running → s.pc.toNat ≤ 0xFFE →
    decode (joinBytes (s.byteAt s.pc.toNat) (s.byteAt (s.pc.toNat + 1))) = .instr i →
    let begun : State :=
      { s with op := joinBytes (s.byteAt s.pc.toNat) (s.byteAt (s.pc.toNat + 1)), pc := s.pc + 2 }
    step s = finishCycle s (exec i begun) ∧
    (∀ t, exec i begun = .next t → t.status = .running →
      step s = .next { t with delay := tick t.delay, sound := tick t.sound }) ∧
    (∀ t f, exec i begun = .next t → t.status = .faulted f → step s = .next { s with status := .faulted f })

/-- R83: which words are no-ops, family by family, and what their cycle does: `op`, `pc` and the timers only. -/
def Obligations.NoOpOnlyAdvancesAndTicks : Prop :=
  (∀ w : Word,
    (classOf w = 0x0 → (decode w = .noOp w ↔ fieldN w ≠ 0x0 ∧ fieldN w ≠ 0xE)) ∧
    (classOf w = 0x8 → (decode w = .noOp w ↔ 0x8 ≤ (fieldN w).toNat ∧ fieldN w ≠ 0xE)) ∧
    (classOf w = 0xE → (decode w = .noOp w ↔ fieldN w ≠ 0x1 ∧ fieldN w ≠ 0xE)) ∧
    (classOf w = 0xF → (decode w = .noOp w ↔
      fieldKk w ∉ ([0x07, 0x0A, 0x15, 0x18, 0x1E, 0x29, 0x33, 0x55, 0x65] : List Byte))) ∧
    (classOf w ∉ ([0x0, 0x8, 0xE, 0xF] : List Nibble) → ∃ i, decode w = .instr i)) ∧
  ∀ s : State, s.status = .running → s.pc.toNat ≤ 0xFFE → decode s.fetchWord = .noOp s.fetchWord →
    step s = .next { s with op := s.fetchWord, pc := s.pc + 2, delay := tick s.delay, sound := tick s.sound }

/-- No encoding traps and no state sticks: a step always answers a next state (R86; R201 makes every error a fault,
which is a next state by R202). -/
def Obligations.StepAlwaysAnswersANextState : Prop :=
  (∀ (i : Instr) (s : State), ∃ t, exec i s = .next t) ∧ ∀ s : State, ∃ t, step s = .next t

/-! ## Control transfer (40_control.md) -/

/-- R101, R107: encodings, the targets as numbers, and nothing but `pc` changes. -/
def Obligations.JumpsGoToTheirTarget : Prop :=
  decodesAs 0xF000 0x1000 (fun w => .jump (fieldNnn w)) ∧
  decodesAs 0xF000 0xB000 (fun w => .jumpOffset (fieldNnn w)) ∧
  (∀ nnn s, ∃ t, exec (.jump nnn) s = .next t ∧ t.pc.toNat = nnn.toNat ∧ OnlyChanges { pc := true } s t) ∧
  (∀ nnn s, ∃ t, exec (.jumpOffset nnn) s = .next t ∧ t.pc.toNat = (s.reg 0).toNat + nnn.toNat ∧
    OnlyChanges { pc := true } s t)

/-- R102: with room, `pc` (the address after the call) is pushed and `pc` becomes `nnn`; with `SP = 16` a
StackOverflow that records `A` and changes nothing else. -/
def Obligations.CallPushesTheReturnAddress : Prop :=
  decodesAs 0xF000 0x2000 (fun w => .call (fieldNnn w)) ∧
  (∀ nnn (s : State) (h : s.sp.val < 16), ∃ t, exec (.call nnn) s = .next t ∧
    t.stack[s.sp.val] = s.pc ∧ t.sp.val = s.sp.val + 1 ∧ t.pc.toNat = nnn.toNat ∧
    OnlyChanges { pc := true, sp := true, stackEntries := [s.sp.val] } s t) ∧
  (∀ nnn (s : State), s.sp.val = 16 →
    exec (.call nnn) s = .next { s with status := .faulted (.stackOverflow (s.pc - 2) s.op) })

/-- R100: with an entry, the top one goes to `pc` and stays in the stack; with `SP = 0` a StackUnderflow that records
`A` and changes nothing else. -/
def Obligations.ReturnPopsTheReturnAddress : Prop :=
  decodesAs 0xF00F 0x000E (fun _ => .ret) ∧
  (∀ (s : State) (h : 0 < s.sp.val), ∃ t, exec .ret s = .next t ∧
    t.pc = s.stack[s.sp.val - 1]'(by omega) ∧ t.sp.val + 1 = s.sp.val ∧
    OnlyChanges { pc := true, sp := true } s t) ∧
  (∀ s : State, s.sp.val = 0 →
    exec .ret s = .next { s with status := .faulted (.stackUnderflow (s.pc - 2) s.op) })

/-- R103 to R106: each skip adds a second 2 to `pc` exactly when its condition holds, and changes nothing else. -/
def Obligations.SkipsAddASecondTwo : Prop :=
  decodesAs 0xF000 0x3000 (fun w => .skipEqConst (fieldX w) (fieldKk w)) ∧
  decodesAs 0xF000 0x4000 (fun w => .skipNeqConst (fieldX w) (fieldKk w)) ∧
  decodesAs 0xF000 0x5000 (fun w => .skipEqReg (fieldX w) (fieldY w)) ∧
  decodesAs 0xF000 0x9000 (fun w => .skipNeqReg (fieldX w) (fieldY w)) ∧
  (∀ x kk (s : State), ∃ t, exec (.skipEqConst x kk) s = .next t ∧
    t.pc = (if (s.reg x).toNat = kk.toNat then s.pc + 2 else s.pc) ∧ OnlyChanges { pc := true } s t) ∧
  (∀ x kk (s : State), ∃ t, exec (.skipNeqConst x kk) s = .next t ∧
    t.pc = (if (s.reg x).toNat = kk.toNat then s.pc else s.pc + 2) ∧ OnlyChanges { pc := true } s t) ∧
  (∀ x y (s : State), ∃ t, exec (.skipEqReg x y) s = .next t ∧
    t.pc = (if (s.reg x).toNat = (s.reg y).toNat then s.pc + 2 else s.pc) ∧ OnlyChanges { pc := true } s t) ∧
  (∀ x y (s : State), ∃ t, exec (.skipNeqReg x y) s = .next t ∧
    t.pc = (if (s.reg x).toNat = (s.reg y).toNat then s.pc else s.pc + 2) ∧ OnlyChanges { pc := true } s t)

/-- R109: a return undoes a call.  After a call with room, a return from any state with the same stack and stack
pointer goes to the call's return address and restores the stack pointer. -/
def Obligations.ReturnUndoesCall : Prop :=
  ∀ nnn (s t u : State), s.sp.val < 16 → exec (.call nnn) s = .next t → u.stack = t.stack → u.sp = t.sp →
    ∃ w, exec .ret u = .next w ∧ w.pc = s.pc ∧ w.sp = s.sp ∧ w.stack = t.stack

/-! ## ALU and registers (41_alu.md) -/

/-- R121, R122: the immediate forms; no flag side effect. -/
def Obligations.ImmediateFormsWriteOneRegister : Prop :=
  decodesAs 0xF000 0x6000 (fun w => .loadConst (fieldX w) (fieldKk w)) ∧
  decodesAs 0xF000 0x7000 (fun w => .addConst (fieldX w) (fieldKk w)) ∧
  (∀ x kk (s : State), ∃ t, exec (.loadConst x kk) s = .next t ∧ t.reg x = kk ∧ OnlyChanges { regs := [x] } s t) ∧
  (∀ x kk (s : State), ∃ t, exec (.addConst x kk) s = .next t ∧
    (t.reg x).toNat = ((s.reg x).toNat + kk.toNat) % 256 ∧ OnlyChanges { regs := [x] } s t)

/-- R123 to R126: copy and the bitwise operations, bit by bit; no flag side effect. -/
def Obligations.CopyAndLogicWriteOneRegister : Prop :=
  decodesAs 0xF00F 0x8000 (fun w => .loadReg (fieldX w) (fieldY w)) ∧
  decodesAs 0xF00F 0x8001 (fun w => .orReg (fieldX w) (fieldY w)) ∧
  decodesAs 0xF00F 0x8002 (fun w => .andReg (fieldX w) (fieldY w)) ∧
  decodesAs 0xF00F 0x8003 (fun w => .xorReg (fieldX w) (fieldY w)) ∧
  (∀ x y (s : State), ∃ t, exec (.loadReg x y) s = .next t ∧ t.reg x = s.reg y ∧ OnlyChanges { regs := [x] } s t) ∧
  (∀ x y (s : State), ∃ t, exec (.orReg x y) s = .next t ∧
    (∀ k, (t.reg x).getLsbD k = ((s.reg x).getLsbD k || (s.reg y).getLsbD k)) ∧ OnlyChanges { regs := [x] } s t) ∧
  (∀ x y (s : State), ∃ t, exec (.andReg x y) s = .next t ∧
    (∀ k, (t.reg x).getLsbD k = ((s.reg x).getLsbD k && (s.reg y).getLsbD k)) ∧ OnlyChanges { regs := [x] } s t) ∧
  (∀ x y (s : State), ∃ t, exec (.xorReg x y) s = .next t ∧
    (∀ k, (t.reg x).getLsbD k = ((s.reg x).getLsbD k ^^ (s.reg y).getLsbD k)) ∧ OnlyChanges { regs := [x] } s t)

/-- R129: sum modulo 256 in `Vx` for every `x` and `y`; the carry in `VF` unless `x = 0xF`, where the sum replaces it
(R128, the spec's decision D10). -/
def Obligations.AddRegGivesSumAndCarry : Prop :=
  decodesAs 0xF00F 0x8004 (fun w => .addReg (fieldX w) (fieldY w)) ∧
  ∀ x y (s : State), ∃ t, exec (.addReg x y) s = .next t ∧
    (t.reg x).toNat = ((s.reg x).toNat + (s.reg y).toNat) % 256 ∧
    (x ≠ 0xF → (t.reg 0xF).toNat = if 255 < (s.reg x).toNat + (s.reg y).toNat then 1 else 0) ∧
    OnlyChanges { regs := [0xF, x] } s t

/-- R130: the flag is "strictly greater" on the values before; the subtraction reads the registers after the flag
write, so its corner cases with `x = 0xF` or `y = 0xF` are stated apart (R128, D10). -/
def Obligations.SubGivesDifferenceAndGreater : Prop :=
  decodesAs 0xF00F 0x8005 (fun w => .sub (fieldX w) (fieldY w)) ∧
  ∀ x y (s : State), ∃ t, exec (.sub x y) s = .next t ∧ OnlyChanges { regs := [0xF, x] } s t ∧
    let greater : Nat := if (s.reg y).toNat < (s.reg x).toNat then 1 else 0
    (x ≠ 0xF → (t.reg 0xF).toNat = greater) ∧
    (x ≠ 0xF → y ≠ 0xF → (t.reg x).toNat = ((s.reg x).toNat + 256 - (s.reg y).toNat) % 256) ∧
    (x ≠ 0xF → y = 0xF → (t.reg x).toNat = ((s.reg x).toNat + 256 - greater) % 256) ∧
    (x = 0xF → y ≠ 0xF → (t.reg x).toNat = (greater + 256 - (s.reg y).toNat) % 256) ∧
    (x = 0xF → y = 0xF → (t.reg x).toNat = 0)

/-- R131: as sub with the operands reversed and the flag "strictly less" (R128, D10 for the corner cases). -/
def Obligations.SubnGivesReversedDifferenceAndLess : Prop :=
  decodesAs 0xF00F 0x8007 (fun w => .subn (fieldX w) (fieldY w)) ∧
  ∀ x y (s : State), ∃ t, exec (.subn x y) s = .next t ∧ OnlyChanges { regs := [0xF, x] } s t ∧
    let less : Nat := if (s.reg x).toNat < (s.reg y).toNat then 1 else 0
    (x ≠ 0xF → (t.reg 0xF).toNat = less) ∧
    (x ≠ 0xF → y ≠ 0xF → (t.reg x).toNat = ((s.reg y).toNat + 256 - (s.reg x).toNat) % 256) ∧
    (x ≠ 0xF → y = 0xF → (t.reg x).toNat = (less + 256 - (s.reg x).toNat) % 256) ∧
    (x = 0xF → y ≠ 0xF → (t.reg x).toNat = ((s.reg y).toNat + 256 - less) % 256) ∧
    (x = 0xF → y = 0xF → (t.reg x).toNat = 0)

/-- R132, R133: the bit shifted out goes to `VF`, from the value before; with `x = 0xF` the result of shifting the flag
replaces it (R128, D10). -/
def Obligations.ShiftsGiveHalfAndDouble : Prop :=
  decodesAs 0xF00F 0x8006 (fun w => .shr (fieldX w)) ∧
  decodesAs 0xF00F 0x800E (fun w => .shl (fieldX w)) ∧
  (∀ x (s : State), ∃ t, exec (.shr x) s = .next t ∧ OnlyChanges { regs := [0xF, x] } s t ∧
    (x ≠ 0xF → (t.reg x).toNat = (s.reg x).toNat / 2 ∧ (t.reg 0xF).toNat = (s.reg x).toNat % 2) ∧
    (x = 0xF → t.reg 0xF = 0)) ∧
  (∀ x (s : State), ∃ t, exec (.shl x) s = .next t ∧ OnlyChanges { regs := [0xF, x] } s t ∧
    (x ≠ 0xF → (t.reg x).toNat = 2 * (s.reg x).toNat % 256 ∧ (t.reg 0xF).toNat = (s.reg x).toNat / 128) ∧
    (x = 0xF → (t.reg 0xF).toNat = 2 * ((s.reg 0xF).toNat / 128)))

/-- R134: one drawn byte, masked bit by bit.  The drawn byte is the model's free value (log entry 3); the statement
holds for every value of it. -/
def Obligations.RandomMasksOneDrawnByte : Prop :=
  decodesAs 0xF000 0xC000 (fun w => .random (fieldX w) (fieldKk w)) ∧
  ∀ x kk (s : State), ∃ t, exec (.random x kk) s = .next t ∧
    (∀ k, (t.reg x).getLsbD k = ((Config.freeRandomByte s.draws).getLsbD k && kk.getLsbD k)) ∧
    t.draws = s.draws + 1 ∧ OnlyChanges { regs := [x], draws := true } s t

/-- D10: the two values of `FLAG_ORDER` agree on every flag instruction that does not name `VF` as an operand, so a
claim about those does not depend on the order the spec chose (log entry 6). -/
def Obligations.FlagOrdersAgreeAwayFromVF : Prop :=
  ∀ (x y : Nibble) (s : State), x ≠ 0xF → y ≠ 0xF →
    s.addRegs .sequential x y = s.addRegs .latched x y ∧
    s.subRegs .sequential x y = s.subRegs .latched x y ∧
    s.subnRegs .sequential x y = s.subnRegs .latched x y ∧
    s.shrReg .sequential x = s.shrReg .latched x ∧
    s.shlReg .sequential x = s.shlReg .latched x

/-! ## Index register and memory (42_index_memory.md) -/

/-- R150 to R152: the three writers of `I`; no flag, no fault. -/
def Obligations.IndexWritersSetI : Prop :=
  decodesAs 0xF000 0xA000 (fun w => .loadIndex (fieldNnn w)) ∧
  decodesAs 0xF0FF 0xF01E (fun w => .addIndex (fieldX w)) ∧
  decodesAs 0xF0FF 0xF029 (fun w => .loadFontGlyph (fieldX w)) ∧
  (∀ nnn (s : State), ∃ t, exec (.loadIndex nnn) s = .next t ∧ t.index.toNat = nnn.toNat ∧
    OnlyChanges { index := true } s t) ∧
  (∀ x (s : State), ∃ t, exec (.addIndex x) s = .next t ∧
    t.index.toNat = (s.index.toNat + (s.reg x).toNat) % 65536 ∧ OnlyChanges { index := true } s t) ∧
  (∀ x (s : State), ∃ t, exec (.loadFontGlyph x) s = .next t ∧
    t.index.toNat = 0x050 + 5 * (s.reg x).toNat ∧ OnlyChanges { index := true } s t)

/-- R153: the three decimal digits at `I`, `I + 1`, `I + 2`; past the end of memory a fault, and no byte written. -/
def Obligations.StoreBcdWritesThreeDigits : Prop :=
  decodesAs 0xF0FF 0xF033 (fun w => .storeBcd (fieldX w)) ∧
  (∀ x (s : State), s.index.toNat + 2 ≤ 0xFFF → ∃ t, exec (.storeBcd x) s = .next t ∧
    (t.byteAt s.index.toNat).toNat = (s.reg x).toNat / 100 ∧
    (t.byteAt (s.index.toNat + 1)).toNat = (s.reg x).toNat / 10 % 10 ∧
    (t.byteAt (s.index.toNat + 2)).toNat = (s.reg x).toNat % 10 ∧
    OnlyChanges { stored := (List.range 3).map s.dataAddr } s t) ∧
  (∀ x (s : State), 0xFFF < s.index.toNat + 2 → ∃ a : Word, a.toNat = max s.index.toNat 0x1000 ∧
    exec (.storeBcd x) s = .next { s with status := .faulted (.memoryOutOfRange (s.pc - 2) s.op a) })

/-- R154: `V[0]` to `V[x]` at `I` to `I + x`; past the end of memory a fault, and no byte written. -/
def Obligations.StoreRegsWritesTheBlock : Prop :=
  decodesAs 0xF0FF 0xF055 (fun w => .storeRegs (fieldX w)) ∧
  (∀ x (s : State), s.index.toNat + x.toNat ≤ 0xFFF → ∃ t, exec (.storeRegs x) s = .next t ∧
    (∀ r : Nibble, r.toNat ≤ x.toNat → t.byteAt (s.index.toNat + r.toNat) = s.reg r) ∧
    OnlyChanges { stored := (List.range (x.toNat + 1)).map s.dataAddr } s t) ∧
  (∀ x (s : State), 0xFFF < s.index.toNat + x.toNat → ∃ a : Word, a.toNat = max s.index.toNat 0x1000 ∧
    exec (.storeRegs x) s = .next { s with status := .faulted (.memoryOutOfRange (s.pc - 2) s.op a) })

/-- R155: `V[0]` to `V[x]` from `I` to `I + x`; past the end of memory a fault, and no register written. -/
def Obligations.LoadRegsReadsTheBlock : Prop :=
  decodesAs 0xF0FF 0xF065 (fun w => .loadRegs (fieldX w)) ∧
  (∀ x (s : State), s.index.toNat + x.toNat ≤ 0xFFF → ∃ t, exec (.loadRegs x) s = .next t ∧
    (∀ r : Nibble, r.toNat ≤ x.toNat → t.reg r = s.byteAt (s.index.toNat + r.toNat)) ∧
    OnlyChanges { regs := regsThrough x } s t) ∧
  (∀ x (s : State), 0xFFF < s.index.toNat + x.toNat → ∃ a : Word, a.toNat = max s.index.toNat 0x1000 ∧
    exec (.loadRegs x) s = .next { s with status := .faulted (.memoryOutOfRange (s.pc - 2) s.op a) })

/-- R156 (which the spec derives from R154 and R155): a store followed by a load with the same `I` and `x`, with the
bytes of the block unchanged between them, restores the registers that were stored. -/
def Obligations.StoreThenLoadRestoresRegisters : Prop :=
  ∀ x (s t u : State), s.index.toNat + x.toNat ≤ 0xFFF → exec (.storeRegs x) s = .next t →
    u.index = s.index → (∀ k, k ≤ x.toNat → u.byteAt (s.index.toNat + k) = t.byteAt (s.index.toNat + k)) →
    ∃ w, exec (.loadRegs x) u = .next w ∧
      (∀ r : Nibble, r.toNat ≤ x.toNat → w.reg r = s.reg r) ∧
      ∀ r : Nibble, x.toNat < r.toNat → w.reg r = u.reg r

/-- R64 (derived there from R52): a word that store-regs writes is the word a later fetch at that address reads, high
byte from the lower register, while `op` of the storing cycle stays. -/
def Obligations.LaterFetchSeesTheStore : Prop :=
  ∀ x (s t u : State) (r r' : Nibble), s.index.toNat + x.toNat ≤ 0xFFF → exec (.storeRegs x) s = .next t →
    u.mem = t.mem → u.pc.toNat = s.index.toNat + r.toNat → r'.toNat = r.toNat + 1 → r'.toNat ≤ x.toNat →
    t.op = s.op ∧ u.fetchWord = joinBytes (s.reg r) (s.reg r')

/-! ## Framebuffer (43_display.md) -/

/-- R170: every cell off, nothing else changed. -/
def Obligations.ClearScreenTurnsEveryCellOff : Prop :=
  decodesAs 0xF00F 0x0000 (fun _ => .clearScreen) ∧
  ∀ s : State, ∃ t, exec .clearScreen s = .next t ∧ (∀ col row, t.cell col row = false) ∧
    OnlyChanges { cells := true } s t

/-- R172: a sprite inside memory and frame flips exactly the cells its set bits land on and leaves the collision in
`VF`; a sprite byte past the end of memory faults first; else a set bit outside the frame faults, recording the first
such cell in row-major order.  (D5, D8 and D9 are the spec's decisions inside R172.) -/
def Obligations.DrawTogglesItsSprite : Prop :=
  decodesAs 0xF000 0xD000 (fun w => .draw (fieldX w) (fieldY w) (fieldN w)) ∧
  ∀ x y n (s : State),
    let sets : Nat → Nat → Prop := fun col row =>
      ∃ r < n.toNat, ∃ c < 8, col = (s.reg x).toNat % 64 + c ∧ row = (s.reg y).toNat % 32 + r ∧
        (s.byteAt (s.index.toNat + r)).getLsbD (7 - c) = true
    (s.index.toNat + n.toNat ≤ 0x1000 ∨ n.toNat = 0 →
      (∀ col row, sets col row → col < 64 ∧ row < 32) →
      ∃ t, exec (.draw x y n) s = .next t ∧
        (∀ col row, t.cell col row ≠ s.cell col row ↔ sets col row) ∧
        ((∃ col row, sets col row ∧ s.cell col row = true) → t.reg 0xF = 1) ∧
        ((¬ ∃ col row, sets col row ∧ s.cell col row = true) → t.reg 0xF = 0) ∧
        OnlyChanges { regs := [0xF], cells := true } s t) ∧
    (0x1000 < s.index.toNat + n.toNat → 0 < n.toNat → ∃ a : Word, a.toNat = max s.index.toNat 0x1000 ∧
      exec (.draw x y n) s = .next { s with status := .faulted (.memoryOutOfRange (s.pc - 2) s.op a) }) ∧
    (s.index.toNat + n.toNat ≤ 0x1000 ∨ n.toNat = 0 →
      (∃ col row, sets col row ∧ ¬ (col < 64 ∧ row < 32)) →
      ∃ col row, sets col row ∧ ¬ (col < 64 ∧ row < 32) ∧
        (∀ col' row', sets col' row' → ¬ (col' < 64 ∧ row' < 32) → row < row' ∨ row = row' ∧ col ≤ col') ∧
        exec (.draw x y n) s = .next { s with status := .faulted (.drawOutOfFrame (s.pc - 2) s.op col row) })

/-- R173 (which the spec derives from R172): a second draw of the same sprite at the same position, with no framebuffer
write between, restores every cell, and its flag is 1 if some touched cell was off before the first draw. -/
def Obligations.DrawingTwiceRestoresTheFrame : Prop :=
  ∀ x y n (s t u : State), s.status = .running → exec (.draw x y n) s = .next t → t.status = .running →
    u.mem = t.mem → u.index = t.index → u.fb = t.fb →
    (u.reg x).toNat % 64 = (s.reg x).toNat % 64 → (u.reg y).toNat % 32 = (s.reg y).toNat % 32 →
    ∃ w, exec (.draw x y n) u = .next w ∧ w.status = u.status ∧
      (∀ col row, w.cell col row = s.cell col row) ∧
      ((∃ p ∈ s.drawPixels x y n, s.cell p.1 p.2 = false) → w.reg 0xF = 1)

/-! ## Keypad and timers (44_keys_timers.md) -/

/-- R180, R181: the key skips, and their fault above 15. -/
def Obligations.KeySkipsReadTheKeypad : Prop :=
  decodesAs 0xF00F 0xE00E (fun w => .skipKeyPressed (fieldX w)) ∧
  decodesAs 0xF00F 0xE001 (fun w => .skipKeyNotPressed (fieldX w)) ∧
  (∀ x (s : State) (k : Fin 16), (s.reg x).toNat = k.val →
    (∃ t, exec (.skipKeyPressed x) s = .next t ∧
      t.pc = (if s.key k = true then s.pc + 2 else s.pc) ∧ OnlyChanges { pc := true } s t) ∧
    (∃ t, exec (.skipKeyNotPressed x) s = .next t ∧
      t.pc = (if s.key k = true then s.pc else s.pc + 2) ∧ OnlyChanges { pc := true } s t)) ∧
  (∀ x (s : State), 15 < (s.reg x).toNat →
    exec (.skipKeyPressed x) s =
      .next { s with status := .faulted (.keyIndexOutOfRange (s.pc - 2) s.op (s.reg x)) } ∧
    exec (.skipKeyNotPressed x) s =
      .next { s with status := .faulted (.keyIndexOutOfRange (s.pc - 2) s.op (s.reg x)) })

/-- R182: the highest pressed key goes to `Vx`; with none pressed `pc` goes back by 2 and nothing else changes. -/
def Obligations.WaitKeyTakesTheHighestKey : Prop :=
  decodesAs 0xF0FF 0xF00A (fun w => .waitKey (fieldX w)) ∧
  (∀ x (s : State) (k : Fin 16), s.key k = true → (∀ j : Fin 16, k < j → s.key j = false) →
    ∃ t, exec (.waitKey x) s = .next t ∧ (t.reg x).toNat = k.val ∧ OnlyChanges { regs := [x] } s t) ∧
  (∀ x (s : State), (∀ k, s.key k = false) →
    ∃ t, exec (.waitKey x) s = .next t ∧ t.pc = s.pc - 2 ∧ OnlyChanges { pc := true } s t)

/-- R182 with R70 and R72: a cycle of a waiting wait-key leaves `pc` where it was, still runs the timers, and otherwise
changes only `op`. -/
def Obligations.WaitingCycleStaysInPlace : Prop :=
  ∀ (s : State) x, s.status = .running → s.pc.toNat ≤ 0xFFE → decode s.fetchWord = .instr (.waitKey x) →
    (∀ k, s.key k = false) →
    ∃ t, step s = .next t ∧ t = { s with op := s.fetchWord, delay := t.delay, sound := t.sound } ∧
      t.delay.toNat = s.delay.toNat - 1 ∧ t.sound.toNat = s.sound.toNat - 1

/-- R183 to R185: the three timer moves, before the cycle's timer step. -/
def Obligations.TimerMovesCopyOneByte : Prop :=
  decodesAs 0xF0FF 0xF007 (fun w => .loadDelay (fieldX w)) ∧
  decodesAs 0xF0FF 0xF015 (fun w => .setDelay (fieldX w)) ∧
  decodesAs 0xF0FF 0xF018 (fun w => .setSound (fieldX w)) ∧
  (∀ x (s : State), ∃ t, exec (.loadDelay x) s = .next t ∧ t.reg x = s.delay ∧ OnlyChanges { regs := [x] } s t) ∧
  (∀ x (s : State), ∃ t, exec (.setDelay x) s = .next t ∧ t.delay = s.reg x ∧ OnlyChanges { delay := true } s t) ∧
  (∀ x (s : State), ∃ t, exec (.setSound x) s = .next t ∧ t.sound = s.reg x ∧ OnlyChanges { sound := true } s t)

/-- R190: every cycle that does not fault takes one from each nonzero timer, after the instruction; a cycle that faults
and a cycle of a faulted block leave both alone. -/
def Obligations.TimersTickOnceACycle : Prop :=
  ∀ s t : State, step s = .next t →
    (t.status = .running →
      (∀ x, decode s.fetchWord = .instr (.setDelay x) → t.delay.toNat = (s.reg x).toNat - 1) ∧
      ((∀ x, decode s.fetchWord ≠ .instr (.setDelay x)) → t.delay.toNat = s.delay.toNat - 1) ∧
      (∀ x, decode s.fetchWord = .instr (.setSound x) → t.sound.toNat = (s.reg x).toNat - 1) ∧
      ((∀ x, decode s.fetchWord ≠ .instr (.setSound x)) → t.sound.toNat = s.sound.toNat - 1)) ∧
    (t.status ≠ .running → t.delay = s.delay ∧ t.sound = s.sound)

/-! ## Faults (60_exceptions.md) -/

/-- R201: the six faults, their codes, when each is raised and what it records; nothing else faults. -/
def Obligations.FaultsAreExactlyTheTabulatedOnes : Prop :=
  (∀ a op b k c r, (Fault.fetchOutOfRange a).code = 1 ∧ (Fault.stackOverflow a op).code = 2 ∧
    (Fault.stackUnderflow a op).code = 3 ∧ (Fault.memoryOutOfRange a op b).code = 4 ∧
    (Fault.keyIndexOutOfRange a op k).code = 5 ∧ (Fault.drawOutOfFrame a op c r).code = 6) ∧
  ∀ (s : State) (f : Fault), s.status = .running →
    ((∃ t, step s = .next t ∧ t.status = .faulted f) ↔
      (0xFFE < s.pc.toNat ∧ f = .fetchOutOfRange s.pc) ∨
      (s.pc.toNat ≤ 0xFFE ∧ ∃ i, decode s.fetchWord = .instr i ∧
        ((∃ nnn, i = .call nnn ∧ s.sp.val = 16 ∧ f = .stackOverflow s.pc s.fetchWord) ∨
         (i = .ret ∧ s.sp.val = 0 ∧ f = .stackUnderflow s.pc s.fetchWord) ∨
         (∃ a : Word, a.toNat = max s.index.toNat 0x1000 ∧ f = .memoryOutOfRange s.pc s.fetchWord a ∧
           ((∃ x, i = .storeBcd x ∧ 0xFFF < s.index.toNat + 2) ∨
            (∃ x, i = .storeRegs x ∧ 0xFFF < s.index.toNat + x.toNat) ∨
            (∃ x, i = .loadRegs x ∧ 0xFFF < s.index.toNat + x.toNat) ∨
            (∃ x y n, i = .draw x y n ∧ 0 < n.toNat ∧ 0x1000 < s.index.toNat + n.toNat))) ∨
         (∃ x, (i = .skipKeyPressed x ∨ i = .skipKeyNotPressed x) ∧ 15 < (s.reg x).toNat ∧
           f = .keyIndexOutOfRange s.pc s.fetchWord (s.reg x)) ∨
         (∃ x y n col row, i = .draw x y n ∧ (n.toNat = 0 ∨ s.index.toNat + n.toNat ≤ 0x1000) ∧
           (s.drawPixels x y n).find? (fun p => decide (64 ≤ p.1 ∨ 32 ≤ p.2)) = some (col, row) ∧
           f = .drawOutOfFrame s.pc s.fetchWord col row))))

/-- R202: a cycle that raises a fault changes `status` alone, to a fault that records the fetch address and the word
fetched there (a fetch fault has none); a faulted block does nothing; and `initialize()` leaves Faulted (that nothing
else does: `OnlyInitializeLeavesFaulted`). -/
def Obligations.FaultsArePreciseAndSticky : Prop :=
  (∀ s t : State, step s = .next t → t.status ≠ s.status →
    s.status = .running ∧ ∃ f, t = { s with status := .faulted f } ∧ f.fetchedAt = s.pc ∧
      (s.pc.toNat ≤ 0xFFE → f.word = some s.fetchWord) ∧ (0xFFE < s.pc.toNat → f.word = none)) ∧
  (∀ s : State, s.status ≠ .running → step s = .next s) ∧
  (∀ s : State, (hostInit s).status = .running)

/-- R203: a fetch above 0xFFE faults before `op` is written, leaving everything but `status`; a fetch at or below 0xFFE
never raises it. -/
def Obligations.FetchFaultsPastTheLastWord : Prop :=
  (∀ s : State, s.status = .running → 0xFFE < s.pc.toNat →
    step s = .next { s with status := .faulted (.fetchOutOfRange s.pc) }) ∧
  (∀ (s t : State) (p : Word), s.status = .running → s.pc.toNat ≤ 0xFFE → step s = .next t →
    t.status ≠ .faulted (.fetchOutOfRange p))

/-! ## Whole-machine rules -/

/-- R24 (derived there): no instruction writes a register the table does not give it. -/
def Obligations.OnlyTabulatedRegistersAreWritten : Prop :=
  ∀ (i : Instr) (s t : State), exec i s = .next t → ∀ x, x ∉ registersWritten i → t.reg x = s.reg x

/-- R26 (derived there): where a cycle that does not fault leaves `pc`, instruction by instruction, from the address `A`
it fetched at. -/
def Obligations.PcAfterACycleIsAsTabulated : Prop :=
  ∀ s t : State, s.status = .running → step s = .next t → t.status = .running →
    match decode s.fetchWord with
    | .instr (.jump nnn) | .instr (.call nnn) => t.pc.toNat = nnn.toNat
    | .instr (.jumpOffset nnn) => t.pc.toNat = (s.reg 0).toNat + nnn.toNat
    | .instr .ret => ∃ (k : Nat) (h : k < 16), s.sp.val = k + 1 ∧ t.pc = s.stack[k]
    | .instr (.skipEqConst x kk) => t.pc = if s.reg x = kk then s.pc + 4 else s.pc + 2
    | .instr (.skipNeqConst x kk) => t.pc = if s.reg x = kk then s.pc + 2 else s.pc + 4
    | .instr (.skipEqReg x y) => t.pc = if s.reg x = s.reg y then s.pc + 4 else s.pc + 2
    | .instr (.skipNeqReg x y) => t.pc = if s.reg x = s.reg y then s.pc + 2 else s.pc + 4
    | .instr (.skipKeyPressed x) =>
      t.pc = if ∃ k, k.val = (s.reg x).toNat ∧ s.key k = true then s.pc + 4 else s.pc + 2
    | .instr (.skipKeyNotPressed x) =>
      t.pc = if ∃ k, k.val = (s.reg x).toNat ∧ s.key k = true then s.pc + 2 else s.pc + 4
    | .instr (.waitKey _) => t.pc = if ∃ k, s.key k = true then s.pc + 2 else s.pc
    | _ => t.pc = s.pc + 2

/-- R54: no instruction changes a byte of memory but store-bcd and store-regs, and those only at the addresses they
store to. -/
def Obligations.OnlyStoresChangeMemory : Prop :=
  ∀ (i : Instr) (s t : State), exec i s = .next t → ∀ a, a ∉ addressesStored s i → t.byteAt a = s.byteAt a

/-- R28 to R34: what the other fields are written by.  `I` by three instructions, the stack by call, `SP` by call and
return, the framebuffer by clear-screen and draw, the keypad and `op` by none. -/
def Obligations.OtherStateHasOnlyItsOwnWriters : Prop :=
  ∀ (i : Instr) (s t : State), exec i s = .next t →
    t.keypad = s.keypad ∧ t.op = s.op ∧
    (t.index ≠ s.index → (∃ nnn, i = .loadIndex nnn) ∨ (∃ x, i = .addIndex x) ∨ (∃ x, i = .loadFontGlyph x)) ∧
    (t.stack ≠ s.stack → ∃ nnn, i = .call nnn) ∧
    (t.sp ≠ s.sp → i = .ret ∨ ∃ nnn, i = .call nnn) ∧
    (t.fb ≠ s.fb → i = .clearScreen ∨ ∃ x y n, i = .draw x y n) ∧
    (t.delay ≠ s.delay → ∃ x, i = .setDelay x) ∧ (t.sound ≠ s.sound → ∃ x, i = .setSound x)

/-- Every step keeps the memory in its canonical form, so equal memories are equal data. -/
def Obligations.StepKeepsMemoryCanonical : Prop :=
  ∀ s t : State, s.memoryCanonical → step s = .next t → t.memoryCanonical

/-- Every step keeps `pc` at or below 0x10FE and every return address at or below 0x1000 (R27, R72, R102, R107): no
fetch advance and no skip ever carries `pc` past 0xFFFF.  R27's own sentence that only jump-offset passes 0xFFF does
not hold beside R203; log entry 12. -/
def Obligations.StepKeepsAddressesBounded : Prop :=
  ∀ s t : State, s.addressesBounded → step s = .next t → t.addressesBounded

/-- Every step keeps a Faulted status true of the state it stands in: the address, the word and the condition it
records (R201, R202). -/
def Obligations.StepKeepsFaultAccounted : Prop :=
  ∀ s t : State, s.faultAccounted → step s = .next t → t.faultAccounted

/-- The reset state meets the three invariants. -/
def Obligations.ResetMeetsTheInvariants : Prop :=
  State.reset.memoryCanonical ∧ State.reset.addressesBounded ∧ State.reset.faultAccounted

/-- R222, as far as R34 lets it hold: a parked state stays parked, and its cycle changes only the timers and `op`, which
takes the jump's word (log entry 13). -/
def Obligations.ParkedStaysParked : Prop :=
  ∀ s : State, s.parked →
    ∃ t, step s = .next t ∧ t.parked ∧ t = { s with op := s.fetchWord, delay := t.delay, sound := t.sound }

/-! ## The host interface (60_exceptions.md R215 to R221, 70_reset_and_hazards.md) -/

/-- R216: an image of at most 3584 bytes goes to 0x200 and changes nothing else; a larger one is refused. -/
def Obligations.LoadProgramWritesOnlyTheImage : Prop :=
  (∀ (image : List Byte) (s : State), image.length ≤ 3584 → ∃ t, hostLoadProgram image s = .done t ∧
    (∀ (k : Nat) (h : k < image.length), t.byteAt (0x200 + k) = image[k]) ∧
    OnlyChanges { stored := (List.range image.length).map (fun k => 0x200 + k) } s t) ∧
  (∀ (image : List Byte) (s : State), 3584 < image.length →
    hostLoadProgram image s = .refused (.capacity image.length))

/-- R217, R218: setKey and clearKey change one keypad entry; a number above 15 is refused. -/
def Obligations.KeyOperationsChangeOneEntry : Prop :=
  (∀ (k : Fin 16) (s : State), ∃ t u,
    hostSetKey k.val s = .done t ∧ hostClearKey k.val s = .done u ∧
    t.key k = true ∧ u.key k = false ∧ (∀ j, j ≠ k → t.key j = s.key j ∧ u.key j = s.key j) ∧
    t = { s with keypad := t.keypad } ∧ u = { s with keypad := u.keypad } ∧
    hostSetKeyTo k.val true s = hostSetKey k.val s ∧ hostSetKeyTo k.val false s = hostClearKey k.val s) ∧
  (∀ (k : Nat) (s : State), 15 < k →
    hostSetKey k s = .refused (.keyIndex k) ∧ hostClearKey k s = .refused (.keyIndex k))

/-- R230: `initialize()` from any state gives every field of the spec its reset value and is idempotent.  The model's
own counter goes on, a choice of the model (log entry 3). -/
def Obligations.InitializeResetsFromAnyState : Prop :=
  ∀ s : State, hostInit s = { State.reset with draws := s.draws } ∧ hostInit (hostInit s) = hostInit s

/-- R35, R207: nothing but `initialize()` leaves Faulted: a step, a program load and a key operation keep the status,
and no raw write makes it Running.  That a raw write of Running is refused is the model's reading (log entry 10). -/
def Obligations.OnlyInitializeLeavesFaulted : Prop :=
  ∀ s : State, s.status ≠ .running →
    (∀ t, step s = .next t → t.status = s.status) ∧
    (∀ image t, hostLoadProgram image s = .done t → t.status = s.status) ∧
    (∀ k pressed t, hostSetKeyTo k pressed s = .done t → t.status = s.status) ∧
    (∀ field t, hostWrite field s = .done t → t.status ≠ .running)

/-- R221, R37: a raw write of any field stores the value given and changes nothing else; a stack pointer outside 0 to 16
is refused.  `status` may be written to anything while Running, and to another fault while Faulted; a write of Running
to a faulted block is refused (R35, R207: the model's reading, log entry 10). -/
def Obligations.RawWritesStoreOneField : Prop :=
  (∀ (x : Nibble) (b : Byte) (s : State), ∃ t, hostWrite (.reg x b) s = .done t ∧ t.reg x = b ∧
    OnlyChanges { regs := [x] } s t) ∧
  (∀ (a : Addr12) (b : Byte) (s : State), ∃ t, hostWrite (.byte a b) s = .done t ∧ t.byteAt a.toNat = b ∧
    OnlyChanges { stored := [a.toNat] } s t) ∧
  (∀ (w : Word) (s : State), ∃ t, hostWrite (.index w) s = .done t ∧ t.index = w ∧
    OnlyChanges { index := true } s t) ∧
  (∀ (w : Word) (s : State), ∃ t, hostWrite (.pc w) s = .done t ∧ t.pc = w ∧ OnlyChanges { pc := true } s t) ∧
  (∀ (k : Fin 16) (w : Word) (s : State), ∃ t, hostWrite (.stackEntry k w) s = .done t ∧ t.stack[k] = w ∧
    OnlyChanges { stackEntries := [k.val] } s t) ∧
  (∀ (n : Nat) (s : State), n ≤ 16 → ∃ t, hostWrite (.sp n) s = .done t ∧ t.sp.val = n ∧
    OnlyChanges { sp := true } s t) ∧
  (∀ (n : Nat) (s : State), 16 < n → hostWrite (.sp n) s = .refused (.stackPointer n)) ∧
  (∀ (b : Byte) (s : State), ∃ t, hostWrite (.delay b) s = .done t ∧ t.delay = b ∧
    OnlyChanges { delay := true } s t) ∧
  (∀ (b : Byte) (s : State), ∃ t, hostWrite (.sound b) s = .done t ∧ t.sound = b ∧
    OnlyChanges { sound := true } s t) ∧
  (∀ (k : Fin 16) (pressed : Bool) (s : State), ∃ t, hostWrite (.key k pressed) s = .done t ∧ t.key k = pressed ∧
    (∀ j, j ≠ k → t.key j = s.key j) ∧ t = { s with keypad := t.keypad }) ∧
  (∀ (col : Fin 64) (row : Fin 32) (on : Bool) (s : State), ∃ t, hostWrite (.cell col row on) s = .done t ∧
    t.cell col.val row.val = on ∧ (∀ c r, (c, r) ≠ (col.val, row.val) → t.cell c r = s.cell c r) ∧
    OnlyChanges { cells := true } s t) ∧
  (∀ (w : Word) (s : State), hostWrite (.op w) s = .done { s with op := w }) ∧
  (∀ (st : Status) (s : State), s.status = .running ∨ st ≠ .running →
    hostWrite (.status st) s = .done { s with status := st }) ∧
  (∀ s : State, s.status ≠ .running → hostWrite (.status .running) s = .refused .faultLatched)
end

