-- ==== Sys2Proof/Laws/State.lean ====
section
/-! SUPPORT. One lemma per field per update of the state, each true by rfl, so that no proof unfolds a record update. -/

namespace Sys2Proof

/-! ## The configured values, in the form simp keeps them -/

@[simp] theorem Config.memSize_eq : Config.memSize = 4096 := rfl
@[simp] theorem Config.fontBase_eq : Config.fontBase = 0x050 := rfl
@[simp] theorem Config.progBase_eq : Config.progBase = 0x200 := rfl
@[simp] theorem Config.progMax_eq : Config.progMax = 3584 := rfl
@[simp] theorem Config.flagReg_eq : Config.flagReg = 15#4 := rfl
@[simp] theorem Config.fbWidth_eq : Config.fbWidth = 64 := rfl
@[simp] theorem Config.fbHeight_eq : Config.fbHeight = 32 := rfl
@[simp] theorem Config.flagOrder_eq : Config.flagOrder = .sequential := rfl
@[simp] theorem Config.oobPolicy_eq : Config.oobPolicy = .fault := rfl
@[simp] theorem Config.drawEdge_eq : Config.drawEdge = .fault := rfl

end Sys2Proof

namespace Sys2Proof.Machine

variable (s : State)

/-! ## setReg -/

@[simp] theorem State.setReg_v (x : Nibble) (b : Byte) : (s.setReg x b).v = s.v.set x.toNat b x.isLt := rfl
@[simp] theorem State.setReg_mem (x : Nibble) (b : Byte) : (s.setReg x b).mem = s.mem := rfl
@[simp] theorem State.setReg_index (x : Nibble) (b : Byte) : (s.setReg x b).index = s.index := rfl
@[simp] theorem State.setReg_pc (x : Nibble) (b : Byte) : (s.setReg x b).pc = s.pc := rfl
@[simp] theorem State.setReg_stack (x : Nibble) (b : Byte) : (s.setReg x b).stack = s.stack := rfl
@[simp] theorem State.setReg_sp (x : Nibble) (b : Byte) : (s.setReg x b).sp = s.sp := rfl
@[simp] theorem State.setReg_delay (x : Nibble) (b : Byte) : (s.setReg x b).delay = s.delay := rfl
@[simp] theorem State.setReg_sound (x : Nibble) (b : Byte) : (s.setReg x b).sound = s.sound := rfl
@[simp] theorem State.setReg_keypad (x : Nibble) (b : Byte) : (s.setReg x b).keypad = s.keypad := rfl
@[simp] theorem State.setReg_fb (x : Nibble) (b : Byte) : (s.setReg x b).fb = s.fb := rfl
@[simp] theorem State.setReg_op (x : Nibble) (b : Byte) : (s.setReg x b).op = s.op := rfl
@[simp] theorem State.setReg_status (x : Nibble) (b : Byte) : (s.setReg x b).status = s.status := rfl
@[simp] theorem State.setReg_draws (x : Nibble) (b : Byte) : (s.setReg x b).draws = s.draws := rfl

/-! ## jumpTo -/

@[simp] theorem State.jumpTo_v (target : Word) : (s.jumpTo target).v = s.v := rfl
@[simp] theorem State.jumpTo_mem (target : Word) : (s.jumpTo target).mem = s.mem := rfl
@[simp] theorem State.jumpTo_index (target : Word) : (s.jumpTo target).index = s.index := rfl
@[simp] theorem State.jumpTo_pc (target : Word) : (s.jumpTo target).pc = target := rfl
@[simp] theorem State.jumpTo_stack (target : Word) : (s.jumpTo target).stack = s.stack := rfl
@[simp] theorem State.jumpTo_sp (target : Word) : (s.jumpTo target).sp = s.sp := rfl
@[simp] theorem State.jumpTo_delay (target : Word) : (s.jumpTo target).delay = s.delay := rfl
@[simp] theorem State.jumpTo_sound (target : Word) : (s.jumpTo target).sound = s.sound := rfl
@[simp] theorem State.jumpTo_keypad (target : Word) : (s.jumpTo target).keypad = s.keypad := rfl
@[simp] theorem State.jumpTo_fb (target : Word) : (s.jumpTo target).fb = s.fb := rfl
@[simp] theorem State.jumpTo_op (target : Word) : (s.jumpTo target).op = s.op := rfl
@[simp] theorem State.jumpTo_status (target : Word) : (s.jumpTo target).status = s.status := rfl
@[simp] theorem State.jumpTo_draws (target : Word) : (s.jumpTo target).draws = s.draws := rfl

/-! ## setIndex -/

@[simp] theorem State.setIndex_v (w : Word) : (s.setIndex w).v = s.v := rfl
@[simp] theorem State.setIndex_mem (w : Word) : (s.setIndex w).mem = s.mem := rfl
@[simp] theorem State.setIndex_index (w : Word) : (s.setIndex w).index = w := rfl
@[simp] theorem State.setIndex_pc (w : Word) : (s.setIndex w).pc = s.pc := rfl
@[simp] theorem State.setIndex_stack (w : Word) : (s.setIndex w).stack = s.stack := rfl
@[simp] theorem State.setIndex_sp (w : Word) : (s.setIndex w).sp = s.sp := rfl
@[simp] theorem State.setIndex_delay (w : Word) : (s.setIndex w).delay = s.delay := rfl
@[simp] theorem State.setIndex_sound (w : Word) : (s.setIndex w).sound = s.sound := rfl
@[simp] theorem State.setIndex_keypad (w : Word) : (s.setIndex w).keypad = s.keypad := rfl
@[simp] theorem State.setIndex_fb (w : Word) : (s.setIndex w).fb = s.fb := rfl
@[simp] theorem State.setIndex_op (w : Word) : (s.setIndex w).op = s.op := rfl
@[simp] theorem State.setIndex_status (w : Word) : (s.setIndex w).status = s.status := rfl
@[simp] theorem State.setIndex_draws (w : Word) : (s.setIndex w).draws = s.draws := rfl

/-! ## takeFault -/

@[simp] theorem State.takeFault_v (f : Fault) : (s.takeFault f).v = s.v := rfl
@[simp] theorem State.takeFault_mem (f : Fault) : (s.takeFault f).mem = s.mem := rfl
@[simp] theorem State.takeFault_index (f : Fault) : (s.takeFault f).index = s.index := rfl
@[simp] theorem State.takeFault_pc (f : Fault) : (s.takeFault f).pc = s.pc := rfl
@[simp] theorem State.takeFault_stack (f : Fault) : (s.takeFault f).stack = s.stack := rfl
@[simp] theorem State.takeFault_sp (f : Fault) : (s.takeFault f).sp = s.sp := rfl
@[simp] theorem State.takeFault_delay (f : Fault) : (s.takeFault f).delay = s.delay := rfl
@[simp] theorem State.takeFault_sound (f : Fault) : (s.takeFault f).sound = s.sound := rfl
@[simp] theorem State.takeFault_keypad (f : Fault) : (s.takeFault f).keypad = s.keypad := rfl
@[simp] theorem State.takeFault_fb (f : Fault) : (s.takeFault f).fb = s.fb := rfl
@[simp] theorem State.takeFault_op (f : Fault) : (s.takeFault f).op = s.op := rfl
@[simp] theorem State.takeFault_status (f : Fault) : (s.takeFault f).status = .faulted f := rfl
@[simp] theorem State.takeFault_draws (f : Fault) : (s.takeFault f).draws = s.draws := rfl

/-! ## timerStep -/

@[simp] theorem State.timerStep_v : (s.timerStep).v = s.v := rfl
@[simp] theorem State.timerStep_mem : (s.timerStep).mem = s.mem := rfl
@[simp] theorem State.timerStep_index : (s.timerStep).index = s.index := rfl
@[simp] theorem State.timerStep_pc : (s.timerStep).pc = s.pc := rfl
@[simp] theorem State.timerStep_stack : (s.timerStep).stack = s.stack := rfl
@[simp] theorem State.timerStep_sp : (s.timerStep).sp = s.sp := rfl
@[simp] theorem State.timerStep_delay : (s.timerStep).delay = tick s.delay := rfl
@[simp] theorem State.timerStep_sound : (s.timerStep).sound = tick s.sound := rfl
@[simp] theorem State.timerStep_keypad : (s.timerStep).keypad = s.keypad := rfl
@[simp] theorem State.timerStep_fb : (s.timerStep).fb = s.fb := rfl
@[simp] theorem State.timerStep_op : (s.timerStep).op = s.op := rfl
@[simp] theorem State.timerStep_status : (s.timerStep).status = s.status := rfl
@[simp] theorem State.timerStep_draws : (s.timerStep).draws = s.draws := rfl

/-! ## beginCycle -/

@[simp] theorem State.beginCycle_v : (s.beginCycle).v = s.v := rfl
@[simp] theorem State.beginCycle_mem : (s.beginCycle).mem = s.mem := rfl
@[simp] theorem State.beginCycle_index : (s.beginCycle).index = s.index := rfl
@[simp] theorem State.beginCycle_pc : (s.beginCycle).pc = s.pc + 2 := rfl
@[simp] theorem State.beginCycle_stack : (s.beginCycle).stack = s.stack := rfl
@[simp] theorem State.beginCycle_sp : (s.beginCycle).sp = s.sp := rfl
@[simp] theorem State.beginCycle_delay : (s.beginCycle).delay = s.delay := rfl
@[simp] theorem State.beginCycle_sound : (s.beginCycle).sound = s.sound := rfl
@[simp] theorem State.beginCycle_keypad : (s.beginCycle).keypad = s.keypad := rfl
@[simp] theorem State.beginCycle_fb : (s.beginCycle).fb = s.fb := rfl
@[simp] theorem State.beginCycle_op : (s.beginCycle).op = s.fetchWord := rfl
@[simp] theorem State.beginCycle_status : (s.beginCycle).status = s.status := rfl
@[simp] theorem State.beginCycle_draws : (s.beginCycle).draws = s.draws := rfl

/-! ## writeBlock -/

@[simp] theorem State.writeBlock_v (bytes : List Byte) : (s.writeBlock bytes).v = s.v := rfl
@[simp] theorem State.writeBlock_mem (bytes : List Byte) : (s.writeBlock bytes).mem = memWriteBlock Config.oobPolicy s.index 0 bytes s.mem := rfl
@[simp] theorem State.writeBlock_index (bytes : List Byte) : (s.writeBlock bytes).index = s.index := rfl
@[simp] theorem State.writeBlock_pc (bytes : List Byte) : (s.writeBlock bytes).pc = s.pc := rfl
@[simp] theorem State.writeBlock_stack (bytes : List Byte) : (s.writeBlock bytes).stack = s.stack := rfl
@[simp] theorem State.writeBlock_sp (bytes : List Byte) : (s.writeBlock bytes).sp = s.sp := rfl
@[simp] theorem State.writeBlock_delay (bytes : List Byte) : (s.writeBlock bytes).delay = s.delay := rfl
@[simp] theorem State.writeBlock_sound (bytes : List Byte) : (s.writeBlock bytes).sound = s.sound := rfl
@[simp] theorem State.writeBlock_keypad (bytes : List Byte) : (s.writeBlock bytes).keypad = s.keypad := rfl
@[simp] theorem State.writeBlock_fb (bytes : List Byte) : (s.writeBlock bytes).fb = s.fb := rfl
@[simp] theorem State.writeBlock_op (bytes : List Byte) : (s.writeBlock bytes).op = s.op := rfl
@[simp] theorem State.writeBlock_status (bytes : List Byte) : (s.writeBlock bytes).status = s.status := rfl
@[simp] theorem State.writeBlock_draws (bytes : List Byte) : (s.writeBlock bytes).draws = s.draws := rfl

/-! ## plot -/

@[simp] theorem State.plot_v (pixels : List Pixel) : (s.plot pixels).v = s.v.set 15 (collisionFlag (togglePixels pixels s.fb false).2) := rfl
@[simp] theorem State.plot_mem (pixels : List Pixel) : (s.plot pixels).mem = s.mem := rfl
@[simp] theorem State.plot_index (pixels : List Pixel) : (s.plot pixels).index = s.index := rfl
@[simp] theorem State.plot_pc (pixels : List Pixel) : (s.plot pixels).pc = s.pc := rfl
@[simp] theorem State.plot_stack (pixels : List Pixel) : (s.plot pixels).stack = s.stack := rfl
@[simp] theorem State.plot_sp (pixels : List Pixel) : (s.plot pixels).sp = s.sp := rfl
@[simp] theorem State.plot_delay (pixels : List Pixel) : (s.plot pixels).delay = s.delay := rfl
@[simp] theorem State.plot_sound (pixels : List Pixel) : (s.plot pixels).sound = s.sound := rfl
@[simp] theorem State.plot_keypad (pixels : List Pixel) : (s.plot pixels).keypad = s.keypad := rfl
@[simp] theorem State.plot_fb (pixels : List Pixel) : (s.plot pixels).fb = (togglePixels pixels s.fb false).1 := rfl
@[simp] theorem State.plot_op (pixels : List Pixel) : (s.plot pixels).op = s.op := rfl
@[simp] theorem State.plot_status (pixels : List Pixel) : (s.plot pixels).status = s.status := rfl
@[simp] theorem State.plot_draws (pixels : List Pixel) : (s.plot pixels).draws = s.draws := rfl

/-! ## skipIf: only pc -/

@[simp] theorem State.skipIf_v (taken : Bool) : (s.skipIf taken).v = s.v := by cases taken <;> rfl
@[simp] theorem State.skipIf_mem (taken : Bool) : (s.skipIf taken).mem = s.mem := by cases taken <;> rfl
@[simp] theorem State.skipIf_index (taken : Bool) : (s.skipIf taken).index = s.index := by cases taken <;> rfl
@[simp] theorem State.skipIf_stack (taken : Bool) : (s.skipIf taken).stack = s.stack := by cases taken <;> rfl
@[simp] theorem State.skipIf_sp (taken : Bool) : (s.skipIf taken).sp = s.sp := by cases taken <;> rfl
@[simp] theorem State.skipIf_delay (taken : Bool) : (s.skipIf taken).delay = s.delay := by cases taken <;> rfl
@[simp] theorem State.skipIf_sound (taken : Bool) : (s.skipIf taken).sound = s.sound := by cases taken <;> rfl
@[simp] theorem State.skipIf_keypad (taken : Bool) : (s.skipIf taken).keypad = s.keypad := by cases taken <;> rfl
@[simp] theorem State.skipIf_fb (taken : Bool) : (s.skipIf taken).fb = s.fb := by cases taken <;> rfl
@[simp] theorem State.skipIf_op (taken : Bool) : (s.skipIf taken).op = s.op := by cases taken <;> rfl
@[simp] theorem State.skipIf_status (taken : Bool) : (s.skipIf taken).status = s.status := by cases taken <;> rfl
@[simp] theorem State.skipIf_draws (taken : Bool) : (s.skipIf taken).draws = s.draws := by cases taken <;> rfl
@[simp] theorem State.skipIf_pc (taken : Bool) : (s.skipIf taken).pc = if taken then s.pc + 2 else s.pc := by
  cases taken <;> rfl

end Sys2Proof.Machine
end

