-- ==== Sys2Proof/Laws/Memory.lean ====
section
/-! SUPPORT. The laws of memory: read after write, and the canonical form is kept by every memory operation. -/

namespace Sys2Proof.Machine

/-! ## Lookup in a changed list -/

theorem find?_insertCell (a : Nat) (b : Byte) (m : Mem) (c : Nat) :
    (insertCell a b m).find? (fun p => p.1 == c) = if c = a then some (a, b) else m.find? (fun p => p.1 == c) := by
  induction m with
  | nil =>
    by_cases h : c = a
    · simp [insertCell, h]
    · simp [insertCell, h, Ne.symm h]
  | cons p rest ih =>
    unfold insertCell
    by_cases h : c = a
    · subst h
      split
      · simp
      · split
        · simp
        · rename_i h1 h2
          simp [ih, Ne.symm h2]
    · have ha : (a == c) = false := by simp [Ne.symm h]
      split
      · simp [List.find?_cons, ha]
      · split
        · rename_i h2
          have : (p.1 == c) = false := by simp [← h2, Ne.symm h]
          simp [ha, this]
        · simp [List.find?_cons, ih, h]

theorem find?_eraseCell (a : Nat) (m : Mem) (c : Nat) :
    (eraseCell a m).find? (fun p => p.1 == c) = if c = a then none else m.find? (fun p => p.1 == c) := by
  induction m with
  | nil => simp [eraseCell]
  | cons p rest ih =>
    unfold eraseCell at ih ⊢
    by_cases hp : p.1 = a
    · by_cases h : c = a
      · simp_all
      · have : (p.1 == c) = false := by simp [hp, Ne.symm h]
        simp_all
    · by_cases h : c = a
      · have : (p.1 == c) = false := by simp [h, hp]
        simp_all
      · simp_all [List.find?_cons]

/-- Read after write: the byte written at its address, every other address as before (R55). -/
theorem memRead_memWrite (m : Mem) (a : Nat) (b : Byte) (c : Nat) :
    memRead (memWrite m a b) c = if c = a ∧ a < Config.memSize then b else memRead m c := by
  unfold memWrite
  by_cases hs : a < Config.memSize
  · by_cases hb : b = resetByte a
    · by_cases h : c = a <;> simp [memRead, hs, hb, h, find?_eraseCell]
    · by_cases h : c = a <;> simp [memRead, hs, hb, h, find?_insertCell]
  · simp [hs]

theorem memRead_memWrite_self (m : Mem) {a : Nat} (b : Byte) (h : a < Config.memSize) :
    memRead (memWrite m a b) a = b := by simp [memRead_memWrite, h]

theorem memRead_memWrite_other (m : Mem) {a c : Nat} (b : Byte) (h : c ≠ a) :
    memRead (memWrite m a b) c = memRead m c := by simp [memRead_memWrite, h]

/-! ## The canonical form -/

theorem mem_insertCell {a : Nat} {b : Byte} {m : Mem} {p : Host.Cell} (h : p ∈ insertCell a b m) :
    p = (a, b) ∨ p ∈ m := by
  induction m with
  | nil => simpa [insertCell] using h
  | cons q rest ih =>
    unfold insertCell at h
    split at h
    · simpa using h
    · split at h
      · rcases List.mem_cons.1 h with h | h
        · exact .inl h
        · exact .inr (List.mem_cons_of_mem _ h)
      · rcases List.mem_cons.1 h with h | h
        · exact .inr (h ▸ List.mem_cons_self)
        · rcases ih h with h | h
          · exact .inl h
          · exact .inr (List.mem_cons_of_mem _ h)

theorem pairwise_insertCell {a : Nat} {b : Byte} {m : Mem} (h : m.Pairwise (fun p q => p.1 < q.1)) :
    (insertCell a b m).Pairwise (fun p q => p.1 < q.1) := by
  induction m with
  | nil => simp [insertCell]
  | cons q rest ih =>
    obtain ⟨hq, hr⟩ := List.pairwise_cons.1 h
    unfold insertCell
    split
    · rename_i hlt
      refine List.pairwise_cons.2 ⟨fun p hp => ?_, h⟩
      rcases List.mem_cons.1 hp with rfl | hp
      · exact hlt
      · exact Nat.lt_trans hlt (hq p hp)
    · split
      · rename_i heq
        exact List.pairwise_cons.2 ⟨fun p hp => by simpa [heq] using hq p hp, hr⟩
      · rename_i h1 h2
        refine List.pairwise_cons.2 ⟨fun p hp => ?_, ih hr⟩
        rcases mem_insertCell hp with rfl | hp
        · show q.1 < a
          omega
        · exact hq p hp

/-- Every write keeps the canonical form, whatever the address. -/
theorem memWf_memWrite {m : Mem} (h : memWf m) (a : Nat) (b : Byte) : memWf (memWrite m a b) := by
  unfold memWrite
  split
  · rename_i hs
    split
    · exact ⟨h.1.filter _, fun p hp => h.2 p (List.mem_filter.1 hp).1⟩
    · rename_i hb
      refine ⟨pairwise_insertCell h.1, fun p hp => ?_⟩
      rcases mem_insertCell hp with rfl | hp
      · exact ⟨hs, hb⟩
      · exact h.2 p hp
  · exact h

theorem memWf_memWriteFrom {m : Mem} (h : memWf m) (a : Nat) (bytes : List Byte) : memWf (memWriteFrom a bytes m) := by
  induction bytes generalizing a m with
  | nil => exact h
  | cons b bs ih => exact ih (memWf_memWrite h a b) (a + 1)

theorem memWf_memWriteBlock {m : Mem} (h : memWf m) (policy : OobPolicy) (base : Word) (k : Nat) (bytes : List Byte) :
    memWf (memWriteBlock policy base k bytes m) := by
  induction bytes generalizing k m with
  | nil => exact h
  | cons b bs ih => exact ih (memWf_memWrite h _ b) (k + 1)

theorem memWf_reset : memWf State.reset.mem := by simp [memWf, State.reset]

/-! ## Blocks of bytes -/

/-- A program image is read back where it was placed, and nothing else changed (R216). -/
theorem memRead_memWriteFrom (m : Mem) (a : Nat) (bytes : List Byte) (h : a + bytes.length ≤ Config.memSize) (c : Nat) :
    memRead (memWriteFrom a bytes m) c =
      if a ≤ c then (if hc : c - a < bytes.length then bytes[c - a] else memRead m c) else memRead m c := by
  induction bytes generalizing a m with
  | nil => simp [memWriteFrom]
  | cons b bs ih =>
    simp only [memWriteFrom, List.length_cons] at h ⊢
    rw [ih _ _ (by omega)]
    by_cases h1 : a + 1 ≤ c
    · have e : c - a = (c - (a + 1)) + 1 := by omega
      have hne : c ≠ a := by omega
      by_cases h2 : c - (a + 1) < bs.length
      · have h3 : c - a < bs.length + 1 := by omega
        simp [h1, h2, show a ≤ c by omega, e]
      · have h3 : ¬ c - a < bs.length + 1 := by omega
        simp [h1, h2, h3, show a ≤ c by omega, memRead_memWrite, hne]
    · by_cases h2 : a = c
      · subst h2
        have : a < Config.memSize := by omega
        simp_all [memRead_memWrite]
      · have hne : c ≠ a := fun h => h2 h.symm
        simp [h1, show ¬ a ≤ c by omega, memRead_memWrite, hne]

/-- A block stored at index plus offset, under the spec's policy, is read back byte for byte, and every other address
reads as before (R54, R55, R58). -/
theorem memRead_memWriteBlock (m : Mem) (base : Word) (k : Nat) (bytes : List Byte)
    (h : base.toNat + k + bytes.length ≤ Config.memSize) (c : Nat) :
    memRead (memWriteBlock .fault base k bytes m) c =
      if base.toNat + k ≤ c then
        (if hc : c - (base.toNat + k) < bytes.length then bytes[c - (base.toNat + k)] else memRead m c)
      else memRead m c := by
  have e : memWriteBlock .fault base k bytes m = memWriteFrom (base.toNat + k) bytes m := by
    clear h
    induction bytes generalizing k m with
    | nil => rfl
    | cons b bs ih => exact ih (memWrite m (base.toNat + k) b) (k + 1)
  rw [e, memRead_memWriteFrom _ _ _ h]

@[simp] theorem State.dataAddr_eq (s : State) (k : Nat) : s.dataAddr k = s.index.toNat + k := rfl

/-- What `writeBlock` leaves at an address, when the block lies in memory. -/
theorem State.byteAt_writeBlock (s : State) (bytes : List Byte) (h : s.index.toNat + bytes.length ≤ Config.memSize)
    (c : Nat) :
    (s.writeBlock bytes).byteAt c =
      if s.index.toNat ≤ c then
        (if hc : c - s.index.toNat < bytes.length then bytes[c - s.index.toNat] else s.byteAt c)
      else s.byteAt c :=
  memRead_memWriteBlock s.mem s.index 0 bytes h c

end Sys2Proof.Machine
end

