-- ==== Sys2Proof/Laws/Registers.lean ====
section
/-! SUPPORT. The laws of registers, of the flag-and-result write, of the framebuffer and of the small shared
operations: for each, one lemma that says everything it can do. -/

namespace Sys2Proof.Machine

/-! ## Registers -/

/-- Read after write of a register (R21, R23). -/
theorem State.reg_setReg (s : State) (x y : Nibble) (b : Byte) :
    (s.setReg x b).reg y = if y = x then b else s.reg y := by
  unfold State.reg
  simp only [State.setReg_v, Vector.getElem_set]
  by_cases h : y = x
  · simp [h]
  · have : x.toNat ≠ y.toNat := fun e => h (BitVec.eq_of_toNat_eq e.symm)
    simp [h, this]

@[simp] theorem State.reg_setReg_self (s : State) (x : Nibble) (b : Byte) : (s.setReg x b).reg x = b := by
  simp [State.reg_setReg]

theorem State.reg_setReg_other (s : State) {x y : Nibble} (b : Byte) (h : y ≠ x) :
    (s.setReg x b).reg y = s.reg y := by simp [State.reg_setReg, h]

/-- Two states with the same register file read alike. -/
theorem State.reg_congr {s t : State} (h : t.v = s.v) (x : Nibble) : t.reg x = s.reg x := by
  simp only [State.reg, h]

/-- Two states with the same memory read alike. -/
theorem State.byteAt_congr {s t : State} (h : t.mem = s.mem) (a : Nat) : t.byteAt a = s.byteAt a := by
  simp only [State.byteAt, h]

/-- Two states with the same framebuffer read alike. -/
theorem State.cell_congr {s t : State} (h : t.fb = s.fb) (col row : Nat) : t.cell col row = s.cell col row := by
  simp only [State.cell, h]

/-- The registers after the flag and the result of a flag instruction (R128), under the spec's order. -/
theorem State.reg_writeFlagResult (s : State) (flag : Byte) (x : Nibble) (result : State → Byte) (y : Nibble) :
    (s.writeFlagResult .sequential flag x result).reg y =
      if y = x then result (s.setReg 0xF flag) else if y = 0xF then flag else s.reg y := by
  simp only [State.writeFlagResult, State.reg_setReg]
  rfl

/-- A flag instruction writes registers and nothing else. -/
theorem State.writeFlagResult_eq (s : State) (order : FlagOrder) (flag : Byte) (x : Nibble) (result : State → Byte) :
    ∃ v, s.writeFlagResult order flag x result = { s with v := v } := by
  cases order <;> exact ⟨_, rfl⟩

/-- The registers that load-regs leaves (R155), under the spec's policy. -/
theorem State.reg_loadedRegs (s : State) (x y : Nibble) :
    ({ s with v := s.loadedRegs x } : State).reg y =
      if y.toNat ≤ x.toNat then s.byteAt (s.index.toNat + y.toNat) else s.reg y := by
  simp [State.reg, State.loadedRegs]

/-- The block that store-regs writes: its length (R154). -/
@[simp] theorem State.length_regsUpTo (s : State) (x : Nibble) : (s.regsUpTo x).length = x.toNat + 1 := by
  have := x.isLt
  simp [State.regsUpTo]
  omega

/-- The block that store-regs writes: its bytes (R154). -/
theorem State.getElem_regsUpTo (s : State) (x y : Nibble) (h : y.toNat < (s.regsUpTo x).length) :
    (s.regsUpTo x)[y.toNat] = s.reg y := by
  simp [State.regsUpTo, State.reg]

@[simp] theorem length_bcdDigits (b : Byte) : (bcdDigits b).length = 3 := rfl

@[simp] theorem State.length_readBlock (s : State) (count : Nat) : (s.readBlock count).length = count := by
  simp [State.readBlock]

/-! ## Framebuffer -/

/-- Read after write of a cell (R33). -/
theorem fbGet_fbSet (fb : Framebuffer) (p q : Pixel) (on : Bool) :
    fbGet (fbSet fb p on) q = if q = p ∧ inFrame p then on else fbGet fb q := by
  unfold fbSet
  split
  · rename_i hp
    unfold fbGet
    split
    · rename_i hq
      obtain ⟨p1, p2⟩ := p
      obtain ⟨q1, q2⟩ := q
      simp only [Vector.getElem_set, Prod.mk.injEq]
      by_cases h1 : p1 = q1
      · subst h1
        by_cases h2 : p2 = q2
        · subst h2; simpa using fun h => absurd hp.2 (Nat.not_lt.2 (h hp.1))
        · simp [h2, Ne.symm h2]
      · simp [h1, Ne.symm h1]
    · rename_i hq
      have : q ≠ p := fun e => hq (e ▸ hp)
      simp [this]
  · rename_i hp
    simp [hp]

@[simp] theorem fbGet_fbClear (p : Pixel) : fbGet fbClear p = false := by
  unfold fbGet fbClear
  split <;> simp

/-! ## Timers -/

/-- The timer step saturates at zero (R31, R190). -/
@[simp] theorem toNat_tick (t : Byte) : (tick t).toNat = t.toNat - 1 := by
  unfold tick
  split
  · rename_i h; simp [h]
  · rename_i h
    have : t.toNat ≠ 0 := fun e => h (BitVec.eq_of_toNat_eq (by simpa using e))
    have := t.isLt
    rw [BitVec.toNat_sub]
    simp
    omega

/-! ## Checks that end in a fault or go on -/

/-- The range check either faults, when an address is above 0xFFF, or goes on (R58). -/
theorem State.withDataRange_eq (s : State) (count : Nat) (go : Outcome) :
    s.withDataRange count go =
      if 0 < count ∧ 0x1000 < s.index.toNat + count then
        raise (.memoryOutOfRange s.fetchAddr s.op (firstOutOfRange s.index)) s
      else go := by
  simp [State.withDataRange, rangeFaults, Config.oobPolicy]

theorem State.withDataRange_ok (s : State) {count : Nat} (go : Outcome) (h : s.index.toNat + count ≤ 0x1000) :
    s.withDataRange count go = go := by
  rw [State.withDataRange_eq, if_neg (by omega)]

/-- The address a memory fault records is `max(I, 0x1000)` (R201). -/
theorem toNat_firstOutOfRange (base : Word) : (firstOutOfRange base).toNat = max base.toNat 0x1000 := by
  unfold firstOutOfRange
  split
  · simp; omega
  · omega

/-- A push succeeds exactly when there is room (R102). -/
theorem State.push_eq (s : State) (w : Word) (h : s.sp.val < 16) :
    s.push w = some { s with stack := s.stack.set s.sp.val w h, sp := ⟨s.sp.val + 1, by omega⟩ } := by
  simp [State.push, h]

theorem State.push_full (s : State) (w : Word) (h : s.sp.val = 16) : s.push w = none := by
  simp [State.push, h]

/-- A pop succeeds exactly when there is an entry (R100). -/
theorem State.pop_eq (s : State) (h : 0 < s.sp.val) :
    s.pop = some (s.stack[s.sp.val - 1]'(by omega), { s with sp := ⟨s.sp.val - 1, by omega⟩ }) := by
  simp [State.pop, h]

theorem State.pop_empty (s : State) (h : s.sp.val = 0) : s.pop = none := by
  simp [State.pop, h]

end Sys2Proof.Machine
end

