-- ==== Sys2Proof/Laws/Cycle.lean ====
section
/-! SUPPORT. What a cycle can do, said once (30_encoding.md R70, 60_exceptions.md R202). -/

namespace Sys2Proof.Machine

/-- A faulted block does nothing (R70, R202). -/
theorem step_of_faulted {s : State} (h : s.status ≠ .running) : step s = .next s := by
  unfold step
  split
  · rfl
  · exact absurd ‹_› h

/-- A running block whose fetch would leave memory faults (R203). -/
theorem step_of_not_fits {s : State} (h : s.status = .running) (hf : ¬ s.fetchFits) :
    step s = raise (.fetchOutOfRange s.pc) s := by
  unfold step
  rw [h]
  exact if_neg hf

/-- A running block that can fetch executes the decoded word from `op` latched and `pc` advanced (R70 to R73). -/
theorem step_of_fits {s : State} (h : s.status = .running) (hf : s.fetchFits) :
    step s = finishCycle s (executeDecoded (decode s.fetchWord) s.beginCycle) := by
  unfold step
  rw [h]
  exact if_pos hf

theorem finishCycle_of_running (s : State) {t : State} (h : t.status = .running) :
    finishCycle s (.next t) = .next t.timerStep := by simp [finishCycle, h]

theorem finishCycle_of_faulted (s : State) {t : State} {f : Fault} (h : t.status = .faulted f) :
    finishCycle s (.next t) = .next (s.takeFault f) := by simp [finishCycle, h, raise]

/-- What a cycle's next state can be: unchanged if faulted before; a fetch fault; a completed execute step followed by
the timer step; or the state before the cycle with the fault the execute step raised (R70, R202). -/
theorem step_cases {s t : State} (h : step s = .next t) :
    (s.status ≠ .running ∧ t = s) ∨
    (s.status = .running ∧ ¬ s.fetchFits ∧ t = s.takeFault (.fetchOutOfRange s.pc)) ∨
    (s.status = .running ∧ s.fetchFits ∧ ∃ u, executeDecoded (decode s.fetchWord) s.beginCycle = .next u ∧
      ((u.status = .running ∧ t = u.timerStep) ∨ ∃ f, u.status = .faulted f ∧ t = s.takeFault f)) := by
  by_cases hr : s.status = .running
  · by_cases hf : s.fetchFits
    · rw [step_of_fits hr hf] at h
      refine .inr (.inr ⟨hr, hf, ?_⟩)
      cases he : executeDecoded (decode s.fetchWord) s.beginCycle with
      | next u =>
        rw [he] at h
        refine ⟨u, rfl, ?_⟩
        cases hu : u.status with
        | running =>
          rw [finishCycle_of_running s hu] at h
          exact .inl ⟨rfl, (Host.Outcome.next.inj h).symm⟩
        | faulted f =>
          rw [finishCycle_of_faulted s hu] at h
          exact .inr ⟨f, rfl, (Host.Outcome.next.inj h).symm⟩
      | fault r => simp [he, finishCycle] at h
      | refused r => simp [he, finishCycle] at h
    · rw [step_of_not_fits hr hf] at h
      exact .inr (.inl ⟨hr, hf, (Host.Outcome.next.inj h).symm⟩)
  · rw [step_of_faulted hr] at h
    exact .inl ⟨hr, (Host.Outcome.next.inj h).symm⟩

end Sys2Proof.Machine
end

