-- ==== Sys2Proof/Laws/Decode.lean ====
section
/-! SUPPORT. The laws of bit fields and byte order: what the packers put in, the fields read out, and a word is its
fields (30_encoding.md R71, R75, R76). -/

namespace Sys2Proof

@[simp] theorem classOf_packNibbles (c x y n : Nibble) : classOf (packNibbles c x y n) = c := by
  ext i h; simp only [classOf, packNibbles, BitVec.getElem_extractLsb', BitVec.getLsbD_append]; grind

@[simp] theorem fieldX_packNibbles (c x y n : Nibble) : fieldX (packNibbles c x y n) = x := by
  ext i h; simp only [fieldX, packNibbles, BitVec.getElem_extractLsb', BitVec.getLsbD_append]; grind

@[simp] theorem fieldY_packNibbles (c x y n : Nibble) : fieldY (packNibbles c x y n) = y := by
  ext i h; simp only [fieldY, packNibbles, BitVec.getElem_extractLsb', BitVec.getLsbD_append]; grind

@[simp] theorem fieldN_packNibbles (c x y n : Nibble) : fieldN (packNibbles c x y n) = n := by
  ext i h; simp only [fieldN, packNibbles, BitVec.getElem_extractLsb', BitVec.getLsbD_append]; grind

@[simp] theorem fieldKk_packNibbles (c x y n : Nibble) : fieldKk (packNibbles c x y n) = y ++ n := by
  ext i h; simp only [fieldKk, packNibbles, BitVec.getElem_extractLsb', BitVec.getLsbD_append]; grind

@[simp] theorem classOf_packXkk (c x : Nibble) (kk : Byte) : classOf (packXkk c x kk) = c := by
  ext i h; simp only [classOf, packXkk, BitVec.getElem_extractLsb', BitVec.getLsbD_append]; grind

@[simp] theorem fieldX_packXkk (c x : Nibble) (kk : Byte) : fieldX (packXkk c x kk) = x := by
  ext i h; simp only [fieldX, packXkk, BitVec.getElem_extractLsb', BitVec.getLsbD_append]; grind

@[simp] theorem fieldKk_packXkk (c x : Nibble) (kk : Byte) : fieldKk (packXkk c x kk) = kk := by
  ext i h; simp only [fieldKk, packXkk, BitVec.getElem_extractLsb', BitVec.getLsbD_append]; grind

@[simp] theorem classOf_packNnn (c : Nibble) (nnn : Addr12) : classOf (packNnn c nnn) = c := by
  ext i h; simp only [classOf, packNnn, BitVec.getElem_extractLsb', BitVec.getLsbD_append]; grind

@[simp] theorem fieldNnn_packNnn (c : Nibble) (nnn : Addr12) : fieldNnn (packNnn c nnn) = nnn := by
  ext i h; simp only [fieldNnn, packNnn, BitVec.getElem_extractLsb', BitVec.getLsbD_append]; grind

/-- A word is its four nibbles (R74, R75). -/
theorem packNibbles_fields (w : Word) : packNibbles (classOf w) (fieldX w) (fieldY w) (fieldN w) = w := by
  ext i h; simp only [classOf, fieldX, fieldY, fieldN, packNibbles]; grind

/-- A word is its class, its register and its byte (R75). -/
theorem packXkk_fields (w : Word) : packXkk (classOf w) (fieldX w) (fieldKk w) = w := by
  ext i h; simp only [classOf, fieldX, fieldKk, packXkk]; grind

/-- A word is its class and its address (R75). -/
theorem packNnn_fields (w : Word) : packNnn (classOf w) (fieldNnn w) = w := by
  ext i h; simp only [classOf, fieldNnn, packNnn]; grind

/-- A word is its two bytes (R52, R71). -/
@[simp] theorem joinBytes_highByte_lowByte (w : Word) : joinBytes (highByte w) (lowByte w) = w := by
  ext i h; simp only [joinBytes, highByte, lowByte]; grind

@[simp] theorem highByte_joinBytes (hi lo : Byte) : highByte (joinBytes hi lo) = hi := by
  ext i h; simp only [highByte, joinBytes, BitVec.getElem_extractLsb', BitVec.getLsbD_append]; grind

@[simp] theorem lowByte_joinBytes (hi lo : Byte) : lowByte (joinBytes hi lo) = lo := by
  ext i h; simp only [lowByte, joinBytes, BitVec.getElem_extractLsb', BitVec.getLsbD_append]; grind

/-- Every instruction is well-formed: the types carry the check (R21, R86). -/
@[simp] theorem Instr.wellFormed_eq (i : Instr) : i.wellFormed = true := by cases i <;> rfl

/-! ## Masks that keep whole nibbles -/

/-- A mask of whole nibbles keeps or clears each nibble (R90). -/
theorem and_F00F (w : Word) : w &&& 0xF00F#16 = packNibbles (classOf w) 0#4 0#4 (fieldN w) := by
  apply BitVec.eq_of_getLsbD_eq
  intro i hi
  unfold packNibbles classOf fieldN
  simp only [BitVec.getLsbD_and, BitVec.getLsbD_append, BitVec.getLsbD_extractLsb']
  interval_cases i <;> simp

theorem and_F000 (w : Word) : w &&& 0xF000#16 = packNibbles (classOf w) 0#4 0#4 0#4 := by
  apply BitVec.eq_of_getLsbD_eq
  intro i hi
  unfold packNibbles classOf
  simp only [BitVec.getLsbD_and, BitVec.getLsbD_append, BitVec.getLsbD_extractLsb']
  interval_cases i <;> simp

theorem and_F0FF (w : Word) : w &&& 0xF0FF#16 = packXkk (classOf w) 0#4 (fieldKk w) := by
  apply BitVec.eq_of_getLsbD_eq
  intro i hi
  unfold packXkk classOf fieldKk
  simp only [BitVec.getLsbD_and, BitVec.getLsbD_append, BitVec.getLsbD_extractLsb']
  interval_cases i <;> simp

end Sys2Proof
end

