-- ==== Sys2Proof/Laws/Display.lean ====
section
/-! SUPPORT. What a sprite sets and what toggling it does (43_display.md R171, R172), and the keypad scan (R182). -/

namespace Sys2Proof.Machine

/-- The pixels of one row byte (R171). -/
theorem mem_spriteRow {px row : Nat} {b : Byte} {p : Pixel} :
    p ∈ spriteRow px row b ↔ p.2 = row ∧ ∃ c < 8, p.1 = px + c ∧ b.getLsbD (7 - c) = true := by
  obtain ⟨p1, p2⟩ := p
  simp only [spriteRow, List.mem_filterMap, List.mem_range]
  constructor
  · rintro ⟨c, hc, h⟩
    split at h
    · rename_i hb
      obtain ⟨rfl, rfl⟩ := Prod.mk.inj (Option.some.inj h)
      exact ⟨rfl, c, hc, rfl, hb⟩
    · cases h
  · rintro ⟨rfl, c, hc, h1, hb⟩
    exact ⟨c, hc, by simp [hb, h1]⟩

/-- The pixels of a sprite (R171, R172): row `k` of the sprite is byte `k`. -/
theorem mem_spritePixels {px py : Nat} {bytes : List Byte} {p : Pixel} :
    p ∈ spritePixels px py bytes ↔
      ∃ (k : Nat) (h : k < bytes.length), p.2 = py + k ∧ ∃ c < 8, p.1 = px + c ∧ bytes[k].getLsbD (7 - c) = true := by
  induction bytes generalizing py with
  | nil => simp [spritePixels]
  | cons b bs ih =>
    simp only [spritePixels, List.mem_append, mem_spriteRow, ih]
    constructor
    · rintro (⟨h2, h⟩ | ⟨k, hk, h2, h⟩)
      · exact ⟨0, by simp, by simpa using h2, by simpa using h⟩
      · exact ⟨k + 1, by simpa using hk, by omega, by simpa using h⟩
    · rintro ⟨k, hk, h2, h⟩
      cases k with
      | zero => exact .inl ⟨by simpa using h2, by simpa using h⟩
      | succ k => exact .inr ⟨k, by simpa using hk, by omega, by simpa using h⟩

theorem nodup_spriteRow (px row : Nat) (b : Byte) : (spriteRow px row b).Nodup := by
  unfold spriteRow
  refine List.Nodup.filterMap (fun c d p h1 h2 => ?_) List.nodup_range
  simp only [Option.mem_def] at h1 h2
  split at h1
  · split at h2
    · have e := congrArg Prod.fst ((Option.some.inj h1).trans (Option.some.inj h2).symm)
      exact Nat.add_left_cancel e
    · cases h2
  · cases h1

/-- A sprite names no cell twice. -/
theorem nodup_spritePixels (px py : Nat) (bytes : List Byte) : (spritePixels px py bytes).Nodup := by
  induction bytes generalizing py with
  | nil => simp [spritePixels]
  | cons b bs ih =>
    simp only [spritePixels, List.nodup_append]
    refine ⟨nodup_spriteRow px py b, ih (py + 1), ?_⟩
    rintro p hp q hq rfl
    obtain ⟨h, -⟩ := mem_spriteRow.1 hp
    obtain ⟨k, -, h', -⟩ := mem_spritePixels.1 hq
    omega

/-- Toggling distinct cells of the frame flips exactly those cells (R172). -/
theorem fbGet_togglePixels {pixels : List Pixel} (hn : pixels.Nodup) (hf : ∀ p ∈ pixels, inFrame p)
    (fb : Framebuffer) (hit : Bool) (q : Pixel) :
    fbGet (togglePixels pixels fb hit).1 q = (fbGet fb q ^^ decide (q ∈ pixels)) := by
  induction pixels generalizing fb hit with
  | nil => simp [togglePixels]
  | cons p ps ih =>
    obtain ⟨hp, hps⟩ := List.nodup_cons.1 hn
    simp only [togglePixels]
    rw [ih hps (fun r hr => hf r (List.mem_cons_of_mem _ hr)), fbGet_fbSet]
    by_cases h : q = p
    · subst h
      simp [hf q List.mem_cons_self, hp]
    · simp [h]

/-- The collision: some toggled cell was lit before (R172). -/
theorem togglePixels_hit {pixels : List Pixel} (hn : pixels.Nodup) (fb : Framebuffer) (hit : Bool) :
    (togglePixels pixels fb hit).2 = (hit || pixels.any (fun p => fbGet fb p)) := by
  induction pixels generalizing fb hit with
  | nil => simp [togglePixels]
  | cons p ps ih =>
    obtain ⟨hp, hps⟩ := List.nodup_cons.1 hn
    have e : ps.any (fun r => fbGet (fbSet fb p (!fbGet fb p)) r) = ps.any (fun r => fbGet fb r) := by
      rw [Bool.eq_iff_iff]
      simp only [List.any_eq_true]
      refine exists_congr fun r => and_congr_right fun hr => ?_
      have : r ≠ p := fun h => hp (h ▸ hr)
      simp [fbGet_fbSet, this]
    simp only [togglePixels, List.any_cons]
    rw [ih hps, e, Bool.or_assoc]

/-- The scan finds the highest pressed key (R182). -/
theorem State.scanKeys_eq_some {s : State} {k : Fin 16} :
    s.scanKeys = some k ↔ s.key k = true ∧ ∀ j : Fin 16, k < j → s.key j = false := by
  have fold : ∀ (n : Nat) (hn : n ≤ 16) (k : Fin 16),
      ((List.finRange 16).take n).foldl (fun found j => if s.key j then some j else found) none = some k ↔
        k.val < n ∧ s.key k = true ∧ ∀ j : Fin 16, j.val < n → k < j → s.key j = false := by
    intro n
    induction n with
    | zero => intro hn k; simp
    | succ n ih =>
      intro hn k
      have ht : (List.finRange 16).take (n + 1) = (List.finRange 16).take n ++ [⟨n, hn⟩] := by
        rw [List.take_add_one]; simp [List.getElem?_eq_getElem (show n < (List.finRange 16).length by simpa using hn)]
      rw [ht, List.foldl_append]
      simp only [List.foldl_cons, List.foldl_nil]
      by_cases hkey : s.key ⟨n, hn⟩ = true
      · simp only [hkey, if_true, Option.some.injEq]
        constructor
        · rintro rfl
          exact ⟨by simp, hkey, fun j hj hlt => absurd (Fin.lt_def.1 hlt) (by simp; omega)⟩
        · rintro ⟨h1, h2, h3⟩
          by_contra hne
          have : k < ⟨n, hn⟩ := Fin.lt_def.2 (by
            have : k.val ≠ n := fun e => hne (Fin.ext (by simpa using e.symm))
            simp; omega)
          simp [h3 ⟨n, hn⟩ (by simp) this] at hkey
      · have hkey' : s.key ⟨n, hn⟩ = false := by simpa using hkey
        simp only [hkey', Bool.false_eq_true, if_false]
        rw [ih (by omega)]
        constructor
        · rintro ⟨h1, h2, h3⟩
          refine ⟨by omega, h2, fun j hj hlt => ?_⟩
          by_cases hjn : j.val = n
          · have : j = ⟨n, hn⟩ := Fin.ext hjn
            rw [this]; exact hkey'
          · exact h3 j (by omega) hlt
        · rintro ⟨h1, h2, h3⟩
          have : k.val ≠ n := fun e => by
            have : k = ⟨n, hn⟩ := Fin.ext e
            rw [this] at h2; simp [hkey'] at h2
          exact ⟨by omega, h2, fun j hj hlt => h3 j (by omega) hlt⟩
  have h16 := fold 16 le_rfl k
  rw [show (List.finRange 16).take 16 = List.finRange 16 from List.take_of_length_le (by simp)] at h16
  rw [State.scanKeys, h16]
  exact ⟨fun ⟨_, h2, h3⟩ => ⟨h2, fun j hj => h3 j j.isLt hj⟩, fun ⟨h2, h3⟩ => ⟨k.isLt, h2, fun j _ hj => h3 j hj⟩⟩

/-- The scan finds nothing exactly when no key is pressed (R182). -/
theorem State.scanKeys_eq_none {s : State} : s.scanKeys = none ↔ ∀ k : Fin 16, s.key k = false := by
  constructor
  · intro h k
    by_contra hk
    have hk : s.key k = true := by simpa using hk
    obtain ⟨m, hm, hmax⟩ := Finset.exists_max_image (Finset.univ.filter fun j => s.key j = true) id
      ⟨k, by simp [hk]⟩
    have : s.scanKeys = some m := State.scanKeys_eq_some.2 ⟨by simpa using hm, fun j hj => by
      by_contra hne
      exact absurd (hmax j (by simpa using hne)) (not_le.2 hj)⟩
    rw [h] at this
    cases this
  · intro h
    cases hs : s.scanKeys with
    | none => rfl
    | some k => exact absurd (State.scanKeys_eq_some.1 hs).1 (by simp [h k])

end Sys2Proof.Machine
end

