-- ==== Sys2Proof/Laws/Footprint.lean ====
section
/-! SUPPORT. The footprint of each shared operation, and how footprints compose. -/

namespace Sys2Proof.Machine

variable {f : Footprint} {s t u : State}

theorem OnlyChanges.refl (f : Footprint) (s : State) : OnlyChanges f s s := by
  constructor <;> intros <;> rfl

theorem OnlyChanges.trans (h : OnlyChanges f s t) (k : OnlyChanges f t u) : OnlyChanges f s u where
  regs x hx := (k.regs x hx).trans (h.regs x hx)
  bytes a ha := (k.bytes a ha).trans (h.bytes a ha)
  index e := (k.index e).trans (h.index e)
  pc e := (k.pc e).trans (h.pc e)
  stack i hi e := (k.stack i hi e).trans (h.stack i hi e)
  sp e := (k.sp e).trans (h.sp e)
  delay e := (k.delay e).trans (h.delay e)
  sound e := (k.sound e).trans (h.sound e)
  keypad := k.keypad.trans h.keypad
  cells e c r := (k.cells e c r).trans (h.cells e c r)
  op := k.op.trans h.op
  status e := (k.status e).trans (h.status e)
  draws e := (k.draws e).trans (h.draws e)

/-- A register write stays in a footprint that names the register. -/
theorem OnlyChanges.setReg {x : Nibble} (hx : x ∈ f.regs) (b : Byte) : OnlyChanges f s (s.setReg x b) where
  regs _ hy := s.reg_setReg_other b (fun e => hy (e ▸ hx))
  bytes _ _ := rfl
  index _ := rfl
  pc _ := rfl
  stack _ _ _ := rfl
  sp _ := rfl
  delay _ := rfl
  sound _ := rfl
  keypad := rfl
  cells _ _ _ := rfl
  op := rfl
  status _ := rfl
  draws _ := rfl

/-- A new register file that agrees outside the named registers stays in the footprint. -/
theorem OnlyChanges.regFile {v : Vector Byte 16} (h : ∀ x, x ∉ f.regs → ({ s with v := v } : State).reg x = s.reg x) :
    OnlyChanges f s { s with v := v } where
  regs := h
  bytes _ _ := rfl
  index _ := rfl
  pc _ := rfl
  stack _ _ _ := rfl
  sp _ := rfl
  delay _ := rfl
  sound _ := rfl
  keypad := rfl
  cells _ _ _ := rfl
  op := rfl
  status _ := rfl
  draws _ := rfl

theorem OnlyChanges.jumpTo (h : f.pc = true) (target : Word) : OnlyChanges f s (s.jumpTo target) := by
  constructor <;> intros <;> first | rfl | simp_all

theorem OnlyChanges.skipIf (h : f.pc = true) (taken : Bool) : OnlyChanges f s (s.skipIf taken) := by
  cases taken
  · exact .refl f s
  · exact .jumpTo h _

theorem OnlyChanges.setIndex (h : f.index = true) (w : Word) : OnlyChanges f s (s.setIndex w) := by
  constructor <;> intros <;> first | rfl | simp_all

theorem OnlyChanges.takeFault (h : f.status = true) (r : Fault) : OnlyChanges f s (s.takeFault r) := by
  constructor <;> intros <;> first | rfl | simp_all

/-- A new framebuffer stays in a footprint that names the cells. -/
theorem OnlyChanges.framebuffer (h : f.cells = true) (fb : Framebuffer) : OnlyChanges f s { s with fb := fb } := by
  constructor <;> intros <;> first | rfl | simp_all

/-- Plotting writes the flag register and the cells. -/
theorem OnlyChanges.plot (hr : Config.flagReg ∈ f.regs) (hc : f.cells = true) (pixels : List Pixel) :
    OnlyChanges f s (s.plot pixels) :=
  (OnlyChanges.setReg (s := s) hr (collisionFlag (togglePixels pixels s.fb false).2)).trans
    (OnlyChanges.framebuffer hc (togglePixels pixels s.fb false).1)

/-- A block written inside memory changes only the addresses it stores to (R54, R55). -/
theorem OnlyChanges.writeBlock (bytes : List Byte) (hf : f.stored = (List.range bytes.length).map s.dataAddr)
    (h : s.index.toNat + bytes.length ≤ Config.memSize) : OnlyChanges f s (s.writeBlock bytes) where
  regs _ _ := rfl
  bytes a ha := by
    rw [hf] at ha
    rw [s.byteAt_writeBlock bytes h]
    split
    · split
      · refine absurd (List.mem_map.2 ⟨a - s.index.toNat, List.mem_range.2 ‹_›, ?_⟩) ha
        simp only [State.dataAddr_eq]
        omega
      · rfl
    · rfl
  index _ := rfl
  pc _ := rfl
  stack _ _ _ := rfl
  sp _ := rfl
  delay _ := rfl
  sound _ := rfl
  keypad := rfl
  cells _ _ _ := rfl
  op := rfl
  status _ := rfl
  draws _ := rfl

/-- A flag and a result are written to `VF` and `Vx` (R128). -/
theorem OnlyChanges.writeFlagResult {x : Nibble} (hf : Config.flagReg ∈ f.regs) (hx : x ∈ f.regs) (order : FlagOrder)
    (flag : Byte) (result : State → Byte) : OnlyChanges f s (s.writeFlagResult order flag x result) := by
  cases order
  · exact (OnlyChanges.setReg hf flag).trans (.setReg hx _)
  · exact (OnlyChanges.setReg hx _).trans (.setReg hf flag)

/-! ## What an instruction can do -/

/-- Everything a range-checked operation can do: go on with the block inside memory, or fault (R58). -/
theorem State.withDataRange_cases {count : Nat} {go : Outcome} (h : s.withDataRange count go = .next t) :
    (count = 0 ∨ s.index.toNat + count ≤ 0x1000) ∧ go = .next t ∨
    ∃ a, (0 < count ∧ 0x1000 < s.index.toNat + count) ∧ a = firstOutOfRange s.index ∧
      t = s.takeFault (.memoryOutOfRange s.fetchAddr s.op a) := by
  rw [State.withDataRange_eq] at h
  split at h
  · exact .inr ⟨_, ‹_›, rfl, (Host.Outcome.next.inj h).symm⟩
  · exact .inl ⟨by omega, h⟩

/-- A range check for the bytes an instruction accesses raises `MemoryOutOfRange` when one lies above 0xFFF (R58). -/
theorem State.withDataRange_of_leaves {i : Instr} (go : Outcome) (h : s.accessLeavesMemory i) :
    s.withDataRange (bytesAccessed i) go =
      raise (.memoryOutOfRange s.fetchAddr s.op (firstOutOfRange s.index)) s := by
  rw [State.withDataRange_eq]
  exact if_pos h

/-- A range check for the bytes an instruction accesses goes on when none lies above 0xFFF (R58). -/
theorem State.withDataRange_of_stays {i : Instr} (go : Outcome) (h : ¬ s.accessLeavesMemory i) :
    s.withDataRange (bytesAccessed i) go = go := by
  rw [State.withDataRange_eq]
  exact if_neg h

/-- Everything a plot can do: every pixel in the frame and plotted, or a fault at the first one outside (R172). -/
theorem State.plotAtEdge_cases {pixels : List Pixel} (h : s.plotAtEdge .fault pixels = .next t) :
    firstOutside pixels = none ∧ t = s.plot pixels ∨
    ∃ p, firstOutside pixels = some p ∧ t = s.takeFault (.drawOutOfFrame s.fetchAddr s.op p.1 p.2) := by
  unfold State.plotAtEdge at h
  cases hp : firstOutside pixels with
  | none => rw [hp] at h; exact .inl ⟨rfl, (Host.Outcome.next.inj h).symm⟩
  | some p => rw [hp] at h; exact .inr ⟨p, rfl, (Host.Outcome.next.inj h).symm⟩

/-- What executing an instruction can do: raise a fault, which changes `status` alone, or stay in its footprint. -/
theorem exec_cases {i : Instr} (h : exec i s = .next t) :
    OnlyChanges (footprint s i) s t ∨ ∃ r, t = s.takeFault r := by
  cases i with
  | clearScreen => cases h; exact .inl (.framebuffer rfl _)
  | ret =>
    by_cases hs : 0 < s.sp.val
    · simp only [exec, execRet, s.pop_eq hs] at h
      cases h
      left
      constructor <;> intros <;> first | rfl | simp_all [footprint]
    · simp only [exec, execRet, s.pop_empty (by omega)] at h
      exact .inr ⟨_, (Host.Outcome.next.inj h).symm⟩
  | call nnn =>
    by_cases hs : s.sp.val < 16
    · simp only [exec, execCall, s.push_eq _ hs] at h
      cases h
      left
      constructor
      case stack =>
        intro k hk hne
        simp only [State.jumpTo_stack]
        exact Vector.getElem_set_ne _ _ (fun e => hne (by simp [footprint, e]))
      all_goals (intros; first | rfl | simp_all [footprint])
    · simp only [exec, execCall, s.push_full _ (by omega)] at h
      exact .inr ⟨_, (Host.Outcome.next.inj h).symm⟩
  | jump _ | jumpOffset _ => cases h; exact .inl (.jumpTo rfl _)
  | skipEqConst _ _ | skipNeqConst _ _ | skipEqReg _ _ | skipNeqReg _ _ => cases h; exact .inl (.skipIf rfl _)
  | loadConst _ _ | addConst _ _ | loadReg _ _ | orReg _ _ | andReg _ _ | xorReg _ _ | loadDelay _ =>
    cases h; exact .inl (.setReg (by simp [footprint, registersWritten]) _)
  | addReg _ _ | sub _ _ | subn _ _ | shr _ | shl _ =>
    cases h
    exact .inl (.writeFlagResult (by simp [footprint, registersWritten]) (by simp [footprint, registersWritten]) _ _ _)
  | loadIndex _ | addIndex _ | loadFontGlyph _ => cases h; exact .inl (.setIndex rfl _)
  | random x kk =>
    cases h
    left
    refine OnlyChanges.trans (t := { s with draws := s.draws + 1 }) ?_
      (.setReg (by simp [footprint, registersWritten]) _)
    constructor <;> intros <;> first | rfl | simp_all [footprint]
  | draw x y n =>
    rcases State.withDataRange_cases h with ⟨-, h⟩ | ⟨a, -, -, h⟩
    · rcases State.plotAtEdge_cases h with ⟨-, rfl⟩ | ⟨p, -, h⟩
      · exact .inl (.plot (by simp [footprint, registersWritten]) rfl _)
      · exact .inr ⟨_, h⟩
    · exact .inr ⟨_, h⟩
  | skipKeyPressed x | skipKeyNotPressed x =>
    simp only [exec, execSkipKeyPressed, execSkipKeyNotPressed, State.withKey] at h
    split at h
    · cases h; exact .inl (.skipIf rfl _)
    · exact .inr ⟨_, (Host.Outcome.next.inj h).symm⟩
  | waitKey x =>
    simp only [exec, execWaitKey] at h
    split at h
    · cases h; exact .inl (.setReg (by simp [footprint, registersWritten]) _)
    · cases h; exact .inl (.jumpTo rfl _)
  | setDelay x | setSound x =>
    cases h; left; constructor <;> intros <;> first | rfl | simp_all [footprint]
  | storeBcd x =>
    rcases State.withDataRange_cases h with ⟨hr, h⟩ | ⟨a, -, -, h⟩
    · cases h; exact .inl (.writeBlock _ rfl (by simp; omega))
    · exact .inr ⟨_, h⟩
  | storeRegs x =>
    rcases State.withDataRange_cases h with ⟨hr, h⟩ | ⟨a, -, -, h⟩
    · cases h
      exact .inl (.writeBlock _ (by simp [footprint, addressesStored]) (by simp; omega))
    · exact .inr ⟨_, h⟩
  | loadRegs x =>
    rcases State.withDataRange_cases h with ⟨hr, h⟩ | ⟨a, -, -, h⟩
    · cases h
      refine .inl (.regFile fun r hr => ?_)
      rw [s.reg_loadedRegs, if_neg]
      exact fun hle => hr (List.mem_map.2 ⟨r.toNat, List.mem_range.2 (by omega), by simp⟩)
    · exact .inr ⟨_, h⟩

end Sys2Proof.Machine
end

