-- ==== Sys2Proof/Laws/PerInstr.lean ====
section
/-! SUPPORT. A statement about every instruction as syntax, one lemma a constructor: the encoder's word belongs to the
instruction's own row of the opcode map (30_encoding.md R90). -/

namespace Sys2Proof.Laws

/-- The encoded word belongs to the instruction's row of R90. -/
def RowMatch.Statement (i : Instr) : Prop := (opcodeRow i).covers (encode i) = true

theorem RowMatch.nibbles {c x y n : Nibble} {v r : Word} (h : v = packNibbles c 0 0 n) :
    OpcodeRow.covers ⟨0xF00F, v, r⟩ (packNibbles c x y n) = true := by
  simp [OpcodeRow.covers, and_F00F, h]

theorem RowMatch.classOnly {w v r : Word} (h : v = packNibbles (classOf w) 0 0 0) :
    OpcodeRow.covers ⟨0xF000, v, r⟩ w = true := by
  simp [OpcodeRow.covers, and_F000, h]

theorem RowMatch.lowByte {c x : Nibble} {kk : Byte} {v r : Word} (h : v = packXkk c 0 kk) :
    OpcodeRow.covers ⟨0xF0FF, v, r⟩ (packXkk c x kk) = true := by
  simp [OpcodeRow.covers, and_F0FF, h]

theorem RowMatch.clearScreen : RowMatch.Statement .clearScreen := RowMatch.nibbles (by decide)
theorem RowMatch.ret : RowMatch.Statement .ret := RowMatch.nibbles (by decide)
theorem RowMatch.jump (nnn : Addr12) : RowMatch.Statement (.jump nnn) := RowMatch.classOnly (by simp [encode]; decide)
theorem RowMatch.call (nnn : Addr12) : RowMatch.Statement (.call nnn) := RowMatch.classOnly (by simp [encode]; decide)
theorem RowMatch.skipEqConst (x : Nibble) (kk : Byte) : RowMatch.Statement (.skipEqConst x kk) := RowMatch.classOnly (by simp [encode]; decide)
theorem RowMatch.skipNeqConst (x : Nibble) (kk : Byte) : RowMatch.Statement (.skipNeqConst x kk) := RowMatch.classOnly (by simp [encode]; decide)
theorem RowMatch.skipEqReg (x : Nibble) (y : Nibble) : RowMatch.Statement (.skipEqReg x y) := RowMatch.classOnly (by simp [encode]; decide)
theorem RowMatch.loadConst (x : Nibble) (kk : Byte) : RowMatch.Statement (.loadConst x kk) := RowMatch.classOnly (by simp [encode]; decide)
theorem RowMatch.addConst (x : Nibble) (kk : Byte) : RowMatch.Statement (.addConst x kk) := RowMatch.classOnly (by simp [encode]; decide)
theorem RowMatch.loadReg (x : Nibble) (y : Nibble) : RowMatch.Statement (.loadReg x y) := RowMatch.nibbles (by decide)
theorem RowMatch.orReg (x : Nibble) (y : Nibble) : RowMatch.Statement (.orReg x y) := RowMatch.nibbles (by decide)
theorem RowMatch.andReg (x : Nibble) (y : Nibble) : RowMatch.Statement (.andReg x y) := RowMatch.nibbles (by decide)
theorem RowMatch.xorReg (x : Nibble) (y : Nibble) : RowMatch.Statement (.xorReg x y) := RowMatch.nibbles (by decide)
theorem RowMatch.addReg (x : Nibble) (y : Nibble) : RowMatch.Statement (.addReg x y) := RowMatch.nibbles (by decide)
theorem RowMatch.sub (x : Nibble) (y : Nibble) : RowMatch.Statement (.sub x y) := RowMatch.nibbles (by decide)
theorem RowMatch.shr (x : Nibble) : RowMatch.Statement (.shr x) := RowMatch.nibbles (by decide)
theorem RowMatch.subn (x : Nibble) (y : Nibble) : RowMatch.Statement (.subn x y) := RowMatch.nibbles (by decide)
theorem RowMatch.shl (x : Nibble) : RowMatch.Statement (.shl x) := RowMatch.nibbles (by decide)
theorem RowMatch.skipNeqReg (x : Nibble) (y : Nibble) : RowMatch.Statement (.skipNeqReg x y) := RowMatch.classOnly (by simp [encode]; decide)
theorem RowMatch.loadIndex (nnn : Addr12) : RowMatch.Statement (.loadIndex nnn) := RowMatch.classOnly (by simp [encode]; decide)
theorem RowMatch.jumpOffset (nnn : Addr12) : RowMatch.Statement (.jumpOffset nnn) := RowMatch.classOnly (by simp [encode]; decide)
theorem RowMatch.random (x : Nibble) (kk : Byte) : RowMatch.Statement (.random x kk) := RowMatch.classOnly (by simp [encode]; decide)
theorem RowMatch.draw (x : Nibble) (y : Nibble) (n : Nibble) : RowMatch.Statement (.draw x y n) := RowMatch.classOnly (by simp [encode]; decide)
theorem RowMatch.skipKeyPressed (x : Nibble) : RowMatch.Statement (.skipKeyPressed x) := RowMatch.nibbles (by decide)
theorem RowMatch.skipKeyNotPressed (x : Nibble) : RowMatch.Statement (.skipKeyNotPressed x) := RowMatch.nibbles (by decide)
theorem RowMatch.loadDelay (x : Nibble) : RowMatch.Statement (.loadDelay x) := RowMatch.lowByte (by decide)
theorem RowMatch.waitKey (x : Nibble) : RowMatch.Statement (.waitKey x) := RowMatch.lowByte (by decide)
theorem RowMatch.setDelay (x : Nibble) : RowMatch.Statement (.setDelay x) := RowMatch.lowByte (by decide)
theorem RowMatch.setSound (x : Nibble) : RowMatch.Statement (.setSound x) := RowMatch.lowByte (by decide)
theorem RowMatch.addIndex (x : Nibble) : RowMatch.Statement (.addIndex x) := RowMatch.lowByte (by decide)
theorem RowMatch.loadFontGlyph (x : Nibble) : RowMatch.Statement (.loadFontGlyph x) := RowMatch.lowByte (by decide)
theorem RowMatch.storeBcd (x : Nibble) : RowMatch.Statement (.storeBcd x) := RowMatch.lowByte (by decide)
theorem RowMatch.storeRegs (x : Nibble) : RowMatch.Statement (.storeRegs x) := RowMatch.lowByte (by decide)
theorem RowMatch.loadRegs (x : Nibble) : RowMatch.Statement (.loadRegs x) := RowMatch.lowByte (by decide)

end Sys2Proof.Laws
end

