-- ==== Sys2Proof/Tests/Slice0.lean ====
section
/-! SUPPORT. Tests of one step or one decode each, with expected results from spec/95_test_vectors.md (rows T<n>) or
from the rule cited, and for every obligation with hypotheses a witness that meets them, clause by clause, at a boundary
of its range. -/

namespace Sys2Proof.Tests

open Sys2Proof Sys2Proof.Machine

/-! ## Small states -/

/-- The reset state with some registers set. -/
def regsSet (l : List (Nibble × Byte)) : State := l.foldl (fun s p => s.setReg p.1 p.2) State.reset

/-- The reset state with `I`, some bytes of memory and some registers set. -/
def dataAt (i : Word) (bytes : List (Nat × Byte)) (l : List (Nibble × Byte)) : State :=
  { regsSet l with index := i, mem := bytes.foldl (fun m p => memWrite m p.1 p.2) [] }

/-- The reset state with an instruction word at an address and `pc` there. -/
def wordAt (a w : Word) : State := ({ State.reset with pc := a }).withFetchWord 16 w.toNat

/-- The next state of one cycle that runs the word from `s`. -/
def ran (s : State) (w : Word) : Option State :=
  match step (s.withFetchWord 16 w.toNat) with
  | .next t => some t
  | .fault _ | .refused _ => none

/-- The three values a register test looks at: a register, `VF` and `pc`. -/
def seen (x : Nibble) (o : Option State) : Option (Byte × Byte × Word) :=
  o.map (fun t => (t.reg x, t.reg 0xF, t.pc))

/-- `pc` after one cycle. -/
def pcOf (o : Option State) : Option Word := o.map (fun t => t.pc)

/-- The status after one cycle. -/
def statusOf (o : Option State) : Option Status := o.map (fun t => t.status)

/-! ## Decoding: a word of every row of R90, written out bit by bit -/

theorem test_decode_class0 :
    decode 0b0000000011100000#16 = .instr .clearScreen ∧ decode 0b0000000000000000#16 = .instr .clearScreen ∧
    decode 0b0000000100100000#16 = .instr .clearScreen ∧ decode 0b0000000011101110#16 = .instr .ret ∧
    decode 0b0000111111111110#16 = .instr .ret ∧ decode 0b0000000100100011#16 = .noOp 0x0123 := by decide

theorem test_decode_control :
    decode 0b0001001000110100#16 = .instr (.jump 0x234) ∧ decode 0b0010001000000100#16 = .instr (.call 0x204) ∧
    decode 0b1011111111111111#16 = .instr (.jumpOffset 0xFFF) ∧
    decode 0b0011001100001010#16 = .instr (.skipEqConst 0x3 0x0A) ∧
    decode 0b0100001100001010#16 = .instr (.skipNeqConst 0x3 0x0A) ∧
    decode 0b0101000100100001#16 = .instr (.skipEqReg 0x1 0x2) ∧
    decode 0b1001000100101111#16 = .instr (.skipNeqReg 0x1 0x2) := by decide

theorem test_decode_immediates :
    decode 0b0110000000001010#16 = .instr (.loadConst 0x0 0x0A) ∧
    decode 0b0111001000000001#16 = .instr (.addConst 0x2 0x01) ∧
    decode 0b1100001100001111#16 = .instr (.random 0x3 0x0F) ∧
    decode 0b1010001100000000#16 = .instr (.loadIndex 0x300) := by decide

theorem test_decode_class8 :
    decode 0b1000000100110000#16 = .instr (.loadReg 0x1 0x3) ∧ decode 0b1000000100100001#16 = .instr (.orReg 0x1 0x2) ∧
    decode 0b1000000100100010#16 = .instr (.andReg 0x1 0x2) ∧ decode 0b1000000100100011#16 = .instr (.xorReg 0x1 0x2) ∧
    decode 0b1000000000010100#16 = .instr (.addReg 0x0 0x1) ∧ decode 0b1000000000010101#16 = .instr (.sub 0x0 0x1) ∧
    decode 0b1000000100100110#16 = .instr (.shr 0x1) ∧ decode 0b1000000000010111#16 = .instr (.subn 0x0 0x1) ∧
    decode 0b1000000100101110#16 = .instr (.shl 0x1) := by decide

theorem test_decode_class8_noops :
    decode 0b1000000000001000#16 = .noOp 0x8008 ∧ decode 0b1000000000001111#16 = .noOp 0x800F := by decide

theorem test_decode_draw_and_keys :
    decode 0b1101000100100101#16 = .instr (.draw 0x1 0x2 0x5) ∧
    decode 0b1110000110011110#16 = .instr (.skipKeyPressed 0x1) ∧
    decode 0b1110000110101110#16 = .instr (.skipKeyPressed 0x1) ∧
    decode 0b1110000110100001#16 = .instr (.skipKeyNotPressed 0x1) ∧
    decode 0b1110000110100000#16 = .noOp 0xE1A0 := by decide

theorem test_decode_classF :
    decode 0b1111000100000111#16 = .instr (.loadDelay 0x1) ∧ decode 0b1111000100001010#16 = .instr (.waitKey 0x1) ∧
    decode 0b1111000100010101#16 = .instr (.setDelay 0x1) ∧ decode 0b1111000100011000#16 = .instr (.setSound 0x1) ∧
    decode 0b1111000100011110#16 = .instr (.addIndex 0x1) ∧ decode 0b1111000100101001#16 = .instr (.loadFontGlyph 0x1) ∧
    decode 0b1111101000110011#16 = .instr (.storeBcd 0xA) ∧ decode 0b1111001001010101#16 = .instr (.storeRegs 0x2) ∧
    decode 0b1111001001100101#16 = .instr (.loadRegs 0x2) := by decide

theorem test_decode_classF_noops :
    decode 0b1111000011111111#16 = .noOp 0xF0FF ∧ decode 0b1111000010010111#16 = .noOp 0xF097 ∧
    decode 0b1111000000000000#16 = .noOp 0xF000 := by decide

theorem test_decode_bytes_high_first :
    decodeBytes [0x60, 0x0A, 0x77] = .ok (.instr (.loadConst 0x0 0x0A), [0x77]) ∧
    decodeBytes [0x60] = .error .truncated := ⟨rfl, rfl⟩

theorem test_decode_table_word :
    decodeTableWord 16 0x600A = some (.loadConst 0x0 0x0A) ∧ decodeTableWord 16 0x0123 = none := by decide

/-! ## WellFormed: what is refused.  An instruction has no ill-formed term (R21, R86) -/

theorem test_image_too_long : programFits (List.replicate 3585 0) = false := by
  unfold programFits; rw [List.length_replicate]; rfl
theorem test_image_longest : programFits (List.replicate 3584 0) = true := by
  unfold programFits; rw [List.length_replicate]; rfl
theorem test_key_too_big : keyIndexOk 16 = false ∧ keyIndexOk 15 = true := by decide
theorem test_stack_pointer_too_big : stackPointerOk 17 = false ∧ stackPointerOk 16 = true := by decide

/-! ## Control transfer (T1 to T26) -/

/-- T1. -/
theorem test_ret : (ran { State.reset with pc := 0x204, sp := 1, stack := State.reset.stack.set 0 0x202 } 0x00EE).map
    (fun t => (t.pc, t.sp.val)) = some (0x202, 0) := by decide
/-- T2. -/
theorem test_ret_underflow : statusOf (ran State.reset 0x00EE) = some (.faulted (.stackUnderflow 0x200 0x00EE)) := by decide
/-- T5. -/
theorem test_jump : pcOf (ran State.reset 0x1204) = some 0x204 := by decide
/-- T9. -/
theorem test_call_last_entry : (ran { State.reset with sp := 15 } 0x2300).map
    (fun t => (t.stack[15], t.sp.val, t.pc)) = some (0x202, 16, 0x300) := by decide
/-- T10. -/
theorem test_call_overflow : (ran { State.reset with sp := 16, delay := 5 } 0x2300).map
    (fun t => (t.status, t.pc, t.delay)) = some (.faulted (.stackOverflow 0x200 0x2300), 0x200, 5) := by decide
/-- T11. -/
theorem test_skip_eq_const_taken : pcOf (ran { regsSet [(3, 0x0A)] with pc := 0x300 } 0x330A) = some 0x304 := by decide
/-- T12. -/
theorem test_skip_eq_const_not : pcOf (ran { regsSet [(3, 0x0B)] with pc := 0x300 } 0x330A) = some 0x302 := by decide
/-- T14. -/
theorem test_skip_neq_const_taken : pcOf (ran { regsSet [(3, 0x0B)] with pc := 0x300 } 0x430A) = some 0x304 := by decide
/-- T15. -/
theorem test_skip_neq_const_not : pcOf (ran { regsSet [(3, 0x0A)] with pc := 0x300 } 0x430A) = some 0x302 := by decide
/-- T17. -/
theorem test_skip_eq_reg_taken : pcOf (ran (regsSet [(1, 7), (2, 7)]) 0x5121) = some 0x204 := by decide
/-- T18. -/
theorem test_skip_eq_reg_not : pcOf (ran (regsSet [(1, 7), (2, 8)]) 0x5120) = some 0x202 := by decide
/-- T22. -/
theorem test_skip_neq_reg_taken : pcOf (ran (regsSet [(1, 7), (2, 8)]) 0x912F) = some 0x204 := by decide
/-- T23. -/
theorem test_skip_neq_reg_same : pcOf (ran State.reset 0x9110) = some 0x202 := by decide
/-- T24. -/
theorem test_jump_offset : pcOf (ran (regsSet [(0, 0x10)]) 0xB300) = some 0x310 := by decide
/-- T25. -/
theorem test_jump_offset_not_reduced : pcOf (ran (regsSet [(0, 0xFF)]) 0xBFFF) = some 0x10FE := by decide

/-! ## ALU (T30 to T72) -/

/-- T30. -/
theorem test_load_const : seen 0 (ran State.reset 0x600A) = some (0x0A, 0, 0x202) := by decide
/-- T31. -/
theorem test_load_const_flag : seen 0xF (ran (regsSet [(0xF, 1)]) 0x6F55) = some (0x55, 0x55, 0x202) := by decide
/-- T32. -/
theorem test_add_const_wraps : seen 2 (ran (regsSet [(2, 0xFF), (0xF, 0x77)]) 0x7201) = some (0, 0x77, 0x202) := by decide
/-- T33. -/
theorem test_add_const_flag_reg : seen 0xF (ran (regsSet [(0xF, 0xFF)]) 0x7F01) = some (0, 0, 0x202) := by decide
/-- T34. -/
theorem test_load_reg : seen 1 (ran (regsSet [(3, 0x42)]) 0x8130) = some (0x42, 0, 0x202) := by decide
/-- T36. -/
theorem test_or_keeps_flag : seen 1 (ran (regsSet [(1, 0xF0), (2, 0x0F), (0xF, 1)]) 0x8121) = some (0xFF, 1, 0x202) := by decide
/-- T37. -/
theorem test_and : seen 1 (ran (regsSet [(1, 0xF0), (2, 0x3C)]) 0x8122) = some (0x30, 0, 0x202) := by decide
/-- T38. -/
theorem test_xor : seen 1 (ran (regsSet [(1, 0xF0), (2, 0x3C)]) 0x8123) = some (0xCC, 0, 0x202) := by decide
/-- T42. -/
theorem test_add_reg_clears_carry : seen 0 (ran (regsSet [(0, 0x7F), (1, 1), (0xF, 1)]) 0x8014) = some (0x80, 0, 0x202) := by decide
/-- T46. -/
theorem test_add_reg_reads_old_flag : seen 1 (ran (regsSet [(1, 1), (0xF, 0xFF)]) 0x81F4) = some (0, 1, 0x202) := by decide
/-- T49. -/
theorem test_sub_equal : seen 0 (ran (regsSet [(0, 5), (1, 5), (0xF, 1)]) 0x8015) = some (0, 0, 0x202) := by decide
/-- T53. -/
theorem test_sub_reads_new_flag : seen 1 (ran (regsSet [(1, 5), (0xF, 3)]) 0x81F5) = some (4, 1, 0x202) := by decide
/-- T55. -/
theorem test_subn_wraps : seen 0 (ran (regsSet [(0, 5), (1, 3)]) 0x8017) = some (0xFE, 0, 0x202) := by decide
/-- T57. -/
theorem test_subn_flag_reg : seen 0xF (ran (regsSet [(0xF, 2), (1, 7)]) 0x8F17) = some (6, 6, 0x202) := by decide
/-- T60. -/
theorem test_shr_ignores_y : seen 1 (ran (regsSet [(1, 5), (2, 0x99)]) 0x8126) = some (2, 1, 0x202) := by decide
/-- T64. -/
theorem test_shr_flag_reg : seen 0xF (ran (regsSet [(0xF, 0xFF)]) 0x8F06) = some (0, 0, 0x202) := by decide
/-- T66. -/
theorem test_shl_carries : seen 0 (ran (regsSet [(0, 0x80)]) 0x800E) = some (0, 1, 0x202) := by decide
/-- T68. -/
theorem test_shl_flag_reg : seen 0xF (ran (regsSet [(0xF, 0x81)]) 0x8F0E) = some (2, 2, 0x202) := by decide
/-- T70, the drawn byte given. -/
theorem test_random_masks : (State.reset.maskRandom 0xAB 3 0x0F).reg 3 = 0x0B := by decide
/-- R134, D11: the cycle advances `pc` and draws once. -/
theorem test_random_cycle : (ran State.reset 0xC30F).map (fun t => (t.pc, t.draws)) = some (0x202, 1) := by decide

/-! ## Index and memory (T80 to T104) -/

/-- T81. -/
theorem test_load_index : (ran State.reset 0xAFFF).map (fun t => t.index) = some 0xFFF := by decide
/-- T83. -/
theorem test_add_index_wraps : (ran (dataAt 0xFFFF [] [(2, 2)]) 0xF21E).map (fun t => t.index) = some 0x0001 := by decide
/-- T84. -/
theorem test_add_index_past_memory : (ran (dataAt 0x0FFF [] [(1, 1)]) 0xF11E).map (fun t => (t.index, t.status)) =
    some (0x1000, .running) := by decide
/-- T85. -/
theorem test_font_glyph : (ran (regsSet [(0, 5)]) 0xF029).map (fun t => t.index) = some 0x069 := by decide
/-- T89. -/
theorem test_font_glyph_not_rejected : (ran (regsSet [(0, 0xFF)]) 0xF029).map (fun t => t.index) = some 0x54B := by decide
/-- T90. -/
theorem test_store_bcd : (ran (dataAt 0x300 [] [(0xA, 156)]) 0xFA33).map (fun t => (t.readBlock 3, t.index)) =
    some ([1, 5, 6], 0x300) := by decide
/-- T95. -/
theorem test_store_bcd_past_memory : (ran (dataAt 0xFFE [] [(0, 7)]) 0xF033).map
    (fun t => (t.status, t.byteAt 0xFFE, t.byteAt 0xFFF)) =
      some (.faulted (.memoryOutOfRange 0x200 0xF033 0x1000), 0, 0) := by decide
/-- T98. -/
theorem test_store_regs_inclusive : (ran (dataAt 0x300 [] [(0, 0xAA), (1, 0xBB)]) 0xF055).map
    (fun t => t.readBlock 2) = some [0xAA, 0] := by decide
/-- T99. -/
theorem test_store_regs_top : (ran (dataAt 0xFF0 [] [(0, 1), (0xF, 0x0F)]) 0xFF55).map
    (fun t => (t.byteAt 0xFF0, t.byteAt 0xFFF, t.status)) = some (1, 0x0F, .running) := by decide
/-- T101. -/
theorem test_load_regs : (ran (dataAt 0x300 [(0x300, 1), (0x301, 5), (0x302, 6)] [(3, 0x33)]) 0xF265).map
    (fun t => (t.reg 0, t.reg 1, t.reg 2, t.reg 3)) = some (1, 5, 6, 0x33) := by decide
/-- T103. -/
theorem test_load_regs_past_memory : statusOf (ran (dataAt 0x1000 [] []) 0xF065) =
    some (.faulted (.memoryOutOfRange 0x200 0xF065 0x1000)) := by decide

/-! ## Framebuffer (T110 to T125) -/

/-- T112. -/
theorem test_clear_screen : (ran { State.reset with fb := fbSet fbClear (3, 4) true } 0x0120).map
    (fun t => t.cell 3 4) = some false := by decide
/-- T117: the start wraps. -/
theorem test_draw_start_wraps : (ran (dataAt 0x300 [(0x300, 0x80)] [(1, 70), (2, 40), (0xF, 5)]) 0xD121).map
    (fun t => (t.cell 6 8, t.cell 7 8, t.reg 0xF)) = some (true, false, 0) := by decide
/-- T125: a set bit outside the frame undoes everything. -/
theorem test_draw_out_of_frame : (ran { dataAt 0x300 [(0x300, 0xFF)] [(1, 60), (0xF, 9)] with
      fb := fbSet fbClear (60, 0) true } 0xD121).map (fun t => (t.status, t.reg 0xF, t.cell 60 0, t.pc)) =
    some (.faulted (.drawOutOfFrame 0x200 0xD121 64 0), 9, true, 0x200) := by decide

/-! ## Keypad and timers (T130 to T149) -/

/-- The keypad with some keys pressed. -/
def keys (l : List (Fin 16)) : Vector Bool 16 := Vector.ofFn (fun k => decide (k ∈ l))

/-- T132. -/
theorem test_skip_key_pressed : pcOf (ran { regsSet [(1, 7)] with keypad := keys [7] } 0xE1AE) = some 0x204 := by decide
/-- T135. -/
theorem test_key_index_16 : statusOf (ran (regsSet [(1, 16)]) 0xE19E) =
    some (.faulted (.keyIndexOutOfRange 0x200 0xE19E 16)) := by decide
/-- T133. -/
theorem test_skip_key_not_pressed : pcOf (ran (regsSet [(1, 7)]) 0xE1A1) = some 0x204 := by decide
/-- T134. -/
theorem test_skip_key_not_pressed_held : pcOf (ran { regsSet [(1, 7)] with keypad := keys [7] } 0xE1A1) = some 0x202 := by decide
/-- T139. -/
theorem test_wait_key_highest : seen 2 (ran { State.reset with keypad := keys [3, 9] } 0xF20A) = some (9, 0, 0x202) := by decide
/-- T141. -/
theorem test_wait_key_waits : (ran { State.reset with delay := 5, sound := 1 } 0xF20A).map
    (fun t => (t.pc, t.delay, t.sound)) = some (0x200, 4, 0) := by decide
/-- T142. -/
theorem test_load_delay : (ran { State.reset with delay := 2 } 0xF107).map (fun t => (t.reg 1, t.delay)) = some (2, 1) := by decide
/-- T144. -/
theorem test_set_delay : (ran (regsSet [(0, 3)]) 0xF015).map (fun t => t.delay) = some 2 := by decide
/-- T145. -/
theorem test_set_delay_zero : (ran { State.reset with delay := 9 } 0xF015).map (fun t => t.delay) = some 0 := by decide
/-- T147. -/
theorem test_set_sound : (ran (regsSet [(0, 0xFF)]) 0xF018).map (fun t => t.sound) = some 0xFE := by decide

/-! ## The cycle (T160 to T174) -/

/-- T160. -/
theorem test_noop_ticks : (ran { State.reset with delay := 3 } 0x0123).map (fun t => (t.pc, t.delay, t.op)) =
    some (0x202, 2, 0x0123) := by decide
/-- T170. -/
theorem test_last_word : (match step (wordAt 0xFFE 0x6001) with | .next t => some (t.reg 0, t.pc, t.status) | _ => none) =
    some (1, 0x1000, .running) := by decide
/-- T172. -/
theorem test_fetch_fault : (match step { State.reset with pc := 0xFFF, delay := 4, op := 0x6001 } with
    | .next t => some (t.status, t.delay, t.op) | _ => none) = some (.faulted (.fetchOutOfRange 0xFFF), 4, 0x6001) := by decide
/-- T174. -/
theorem test_faulted_stays : step { wordAt 0x200 0x600A with status := .faulted (.stackUnderflow 0x200 0x00EE) } =
    .next { wordAt 0x200 0x600A with status := .faulted (.stackUnderflow 0x200 0x00EE) } := rfl
/-- T178, T179. -/
theorem test_key_operations : hostSetKey 16 State.reset = .refused (.keyIndex 16) ∧
    (match hostSetKey 7 State.reset with | .done t => t.key 7 | .refused _ => false) = true := by decide

/-! ## Witnesses: a concrete state and operands for the hypotheses of each obligation -/

/-- An instruction's next state, for the witnesses that need one. -/
def did (i : Instr) (s : State) : State :=
  match exec i s with
  | .next t => t
  | .fault _ | .refused _ => s

theorem test_witness_ResetLeavesEveryFieldAsTabulated :
    0x04F < 0x050 ∧ 79 < Config.font.length ∧ 0x0A0 ≤ 0xFFF ∧ 15 < 16 := by decide

/-- For every digit, and at 15 in a state whose next cycle fetches the instruction. -/
theorem test_witness_FontGlyphIsFoundForEveryDigit :
    (∀ d < 16, (regsSet [(3, BitVec.ofNat 8 d)]).mem = [] ∧ ((regsSet [(3, BitVec.ofNat 8 d)]).reg 3).toNat = d) ∧
    let s := (regsSet [(3, 15)]).withFetchWord 16 0xF329
    (∀ (k : Nat) (h : k < Config.font.length), s.byteAt (0x050 + k) = Config.font[k]) ∧ (s.reg 3).toNat = 15 ∧
    decode s.fetchWord = .instr (.loadFontGlyph 3) := by decide

theorem test_witness_DecodeInvertsEncode : (Instr.draw 0xF 0xF 0xF).wellFormed = true ∧ Instr.ret.wellFormed = true := by
  decide

theorem test_witness_DecodeFollowsTheOpcodeMap :
    decode 0xF065 = .instr (.loadRegs 0) ∧ (opcodeRow (.loadRegs 0xF)).covers 0xF065 = true ∧
    (opcodeRow .clearScreen).covers 0x0FF0 = true ∧ decode 0x0001 = .noOp 0x0001 ∧
    (opcodeRow (.jump 0)).covers 0x1FFF = true ∧ (opcodeRow (.jump 5)).covers 0x1FFF = true := by decide

/-- Two words that differ in every ignored bit: 5xy- and 8x-6. -/
theorem test_witness_IgnoredBitsDoNotMatter :
    decode 0x512F = .instr (.skipEqReg 1 2) ∧
    0x5120 &&& (opcodeRow (.skipEqReg 1 2)).reads = 0x512F &&& (opcodeRow (.skipEqReg 1 2)).reads ∧
    decode 0x81F6 = .instr (.shr 1) ∧
    0x8106 &&& (opcodeRow (.shr 1)).reads = 0x81F6 &&& (opcodeRow (.shr 1)).reads := by decide

/-- A word of every row of R90 with all the row's other bits set: the hypotheses of every `decodesAs`. -/
theorem test_witness_decodesAs :
    0x0FF0 &&& 0xF00F = (0x0000 : Word) ∧ 0x0FFE &&& 0xF00F = (0x000E : Word) ∧
    (∀ c < 16, (BitVec.ofNat 16 (c * 0x1000 + 0xFFF)) &&& 0xF000 = BitVec.ofNat 16 (c * 0x1000)) ∧
    (∀ n < 16, (BitVec.ofNat 16 (0x8FF0 + n)) &&& 0xF00F = BitVec.ofNat 16 (0x8000 + n)) ∧
    (∀ n < 16, (BitVec.ofNat 16 (0xEFF0 + n)) &&& 0xF00F = BitVec.ofNat 16 (0xE000 + n)) ∧
    (∀ k ∈ [0x07, 0x0A, 0x15, 0x18, 0x1E, 0x29, 0x33, 0x55, 0x65],
      (BitVec.ofNat 16 (0xFF00 + k)) &&& 0xF0FF = BitVec.ofNat 16 (0xF000 + k)) := by decide

/-- A last-word fetch that runs, and one that faults. -/
theorem test_witness_StepRunsTheDecodedInstruction :
    (wordAt 0xFFE 0x6001).status = .running ∧ (wordAt 0xFFE 0x6001).pc.toNat ≤ 0xFFE ∧
    decode (joinBytes ((wordAt 0xFFE 0x6001).byteAt 0xFFE) ((wordAt 0xFFE 0x6001).byteAt 0xFFF)) =
      .instr (.loadConst 0 1) ∧
    (did (.loadConst 0 1) (wordAt 0xFFE 0x6001).beginCycle).status = .running ∧
    exec (.loadConst 0 1) (wordAt 0xFFE 0x6001).beginCycle =
      .next (did (.loadConst 0 1) (wordAt 0xFFE 0x6001).beginCycle) ∧
    exec .ret (wordAt 0x200 0x00EE).beginCycle = .next (did .ret (wordAt 0x200 0x00EE).beginCycle) ∧
    (did .ret (wordAt 0x200 0x00EE).beginCycle).status = .faulted (.stackUnderflow 0x200 0x00EE) :=
  ⟨by decide, by decide, by decide, by decide, rfl, rfl, by decide⟩

theorem test_witness_NoOpOnlyAdvancesAndTicks :
    (classOf 0x0FFD = 0x0 ∧ decode 0x0FFD = .noOp 0x0FFD) ∧ (classOf 0x8008 = 0x8 ∧ decode 0x8008 = .noOp 0x8008) ∧
    (classOf 0xE00F = 0xE ∧ decode 0xE00F = .noOp 0xE00F) ∧ (classOf 0xF066 = 0xF ∧ decode 0xF066 = .noOp 0xF066) ∧
    classOf 0x7000 ∉ ([0x0, 0x8, 0xE, 0xF] : List Nibble) ∧
    (wordAt 0xFFE 0xF0FF).status = .running ∧ (wordAt 0xFFE 0xF0FF).pc.toNat ≤ 0xFFE ∧
    decode (wordAt 0xFFE 0xF0FF).fetchWord = .noOp (wordAt 0xFFE 0xF0FF).fetchWord := by decide

/-- The last entry that is free, and the full stack. -/
theorem test_witness_CallPushesTheReturnAddress :
    ({ State.reset with sp := 15 } : State).sp.val < 16 ∧ ({ State.reset with sp := 16 } : State).sp.val = 16 := by decide

/-- One entry, a full stack, and none. -/
theorem test_witness_ReturnPopsTheReturnAddress :
    0 < ({ State.reset with sp := 1 } : State).sp.val ∧ 0 < ({ State.reset with sp := 16 } : State).sp.val ∧
    State.reset.sp.val = 0 := by decide

theorem test_witness_ReturnUndoesCall :
    let s : State := { State.reset with sp := 15 }
    s.sp.val < 16 ∧ exec (.call 0x300) s = .next (did (.call 0x300) s) ∧
    ({ did (.call 0x300) s with pc := 0x345 } : State).stack = (did (.call 0x300) s).stack ∧
    ({ did (.call 0x300) s with pc := 0x345 } : State).sp = (did (.call 0x300) s).sp :=
  ⟨by decide, rfl, rfl, rfl⟩

/-- Both outcomes of every skip's condition, at the ends of the range. -/
theorem test_witness_SkipsAddASecondTwo :
    ((regsSet [(3, 0xFF)]).reg 3).toNat = (0xFF : Byte).toNat ∧ ((regsSet [(3, 0xFF)]).reg 3).toNat ≠ (0xFE : Byte).toNat ∧
    ((regsSet [(3, 0xFF)]).reg 1).toNat = ((regsSet [(3, 0xFF)]).reg 2).toNat ∧
    ((regsSet [(3, 0xFF)]).reg 3).toNat ≠ ((regsSet [(3, 0xFF)]).reg 2).toNat := by decide

/-- Sums of 255 and 256, and `x` on both sides of `x ≠ 0xF`. -/
theorem test_witness_AddRegGivesSumAndCarry :
    (0xE : Nibble) ≠ 0xF ∧
    ¬ 255 < ((regsSet [(0, 0xFE), (1, 1)]).reg 0).toNat + ((regsSet [(0, 0xFE), (1, 1)]).reg 1).toNat ∧
    255 < ((regsSet [(0, 0xFF), (1, 1)]).reg 0).toNat + ((regsSet [(0, 0xFF), (1, 1)]).reg 1).toNat := by decide

/-- The four clauses on `x` and `y`, for sub and subn; equal operands give the flag 0, one more gives 1. -/
theorem test_witness_SubGivesDifferenceAndGreater :
    ((0xE : Nibble) ≠ 0xF ∧ (0xE : Nibble) ≠ 0xF) ∧ ((0xE : Nibble) ≠ 0xF ∧ (0xF : Nibble) = 0xF) ∧
    ((0xF : Nibble) = 0xF ∧ (0xE : Nibble) ≠ 0xF) ∧
    ¬ ((regsSet [(0, 5), (1, 5)]).reg 1).toNat < ((regsSet [(0, 5), (1, 5)]).reg 0).toNat ∧
    ((regsSet [(0, 6), (1, 5)]).reg 1).toNat < ((regsSet [(0, 6), (1, 5)]).reg 0).toNat := by decide

theorem test_witness_SubnGivesReversedDifferenceAndLess :
    ((0xE : Nibble) ≠ 0xF ∧ (0x0 : Nibble) ≠ 0xF) ∧ ((0x0 : Nibble) ≠ 0xF ∧ (0xF : Nibble) = 0xF) ∧
    ((0xF : Nibble) = 0xF ∧ (0x0 : Nibble) ≠ 0xF) ∧
    ¬ ((regsSet [(0, 5), (1, 5)]).reg 0).toNat < ((regsSet [(0, 5), (1, 5)]).reg 1).toNat ∧
    ((regsSet [(0, 5), (1, 6)]).reg 0).toNat < ((regsSet [(0, 5), (1, 6)]).reg 1).toNat := by decide

theorem test_witness_ShiftsGiveHalfAndDouble : (0xE : Nibble) ≠ 0xF ∧ (0xF : Nibble) = 0xF := by decide

theorem test_witness_FlagOrdersAgreeAwayFromVF : (0xE : Nibble) ≠ 0xF ∧ (0x0 : Nibble) ≠ 0xF := by decide

/-- The last base that fits and the first that does not. -/
theorem test_witness_StoreBcdWritesThreeDigits :
    (dataAt 0xFFD [] []).index.toNat + 2 ≤ 0xFFF ∧ 0xFFF < (dataAt 0xFFE [] []).index.toNat + 2 := by decide

theorem test_witness_StoreRegsWritesTheBlock :
    (dataAt 0xFF0 [] []).index.toNat + (0xF : Nibble).toNat ≤ 0xFFF ∧ (0xF : Nibble).toNat ≤ (0xF : Nibble).toNat ∧
    0xFFF < (dataAt 0xFF1 [] []).index.toNat + (0xF : Nibble).toNat := by decide

theorem test_witness_LoadRegsReadsTheBlock :
    (dataAt 0xFFF [] []).index.toNat + (0x0 : Nibble).toNat ≤ 0xFFF ∧ (0x0 : Nibble).toNat ≤ (0x0 : Nibble).toNat ∧
    0xFFF < (dataAt 0x1000 [] []).index.toNat + (0x0 : Nibble).toNat := by decide

/-- `t` is the store's next state and `u` the same with `V0` cleared since. -/
theorem test_witness_StoreThenLoadRestoresRegisters :
    let s := dataAt 0xFFE [] [(0, 0x12), (1, 0x34)]
    let t := did (.storeRegs 1) s
    let u := t.setReg 0 0
    s.index.toNat + (1 : Nibble).toNat ≤ 0xFFF ∧ exec (.storeRegs 1) s = .next t ∧ u.index = s.index ∧
    (∀ k, k ≤ (1 : Nibble).toNat → u.byteAt (s.index.toNat + k) = t.byteAt (s.index.toNat + k)) ∧
    (0 : Nibble).toNat ≤ (1 : Nibble).toNat ∧ (1 : Nibble).toNat < (2 : Nibble).toNat :=
  ⟨by decide, rfl, rfl, fun _ _ => rfl, by decide, by decide⟩

/-- L3-6: the words stored at 0x208, then fetched. -/
theorem test_witness_LaterFetchSeesTheStore :
    let s := dataAt 0x208 [] [(0, 0x12), (1, 0x08)]
    let t := did (.storeRegs 1) s
    let u : State := { t with pc := 0x208 }
    s.index.toNat + (1 : Nibble).toNat ≤ 0xFFF ∧ exec (.storeRegs 1) s = .next t ∧ u.mem = t.mem ∧
    u.pc.toNat = s.index.toNat + (0 : Nibble).toNat ∧ (1 : Nibble).toNat = (0 : Nibble).toNat + 1 ∧
    (1 : Nibble).toNat ≤ (1 : Nibble).toNat :=
  ⟨by decide, rfl, rfl, by decide, by decide, by decide⟩

/-- The cells a sprite sets, as `Obligations.DrawTogglesItsSprite` writes them. -/
def sets (s : State) (x y n : Nibble) (col row : Nat) : Prop :=
  ∃ r < n.toNat, ∃ c < 8, col = (s.reg x).toNat % 64 + c ∧ row = (s.reg y).toNat % 32 + r ∧
    (s.byteAt (s.index.toNat + r)).getLsbD (7 - c) = true

/-- Glyph 0 (four columns, five rows) at the last column and row where it fits; one cell of the frame is lit or not. -/
theorem test_witness_DrawTogglesItsSprite_inside :
    let s := dataAt 0x050 [] [(1, 60), (2, 27)]
    (s.index.toNat + (5 : Nibble).toNat ≤ 0x1000 ∨ (5 : Nibble).toNat = 0) ∧
    (∀ col row, sets s 1 2 5 col row → col < 64 ∧ row < 32) ∧ sets s 1 2 5 63 31 ∧
    ({ s with fb := fbSet fbClear (63, 31) true } : State).cell 63 31 = true ∧
    (∀ col row, s.cell col row = true → False) := by
  refine ⟨by decide, ?_, ⟨4, by decide, 3, by decide, by decide, by decide, by decide⟩, by decide, ?_⟩
  · rintro col row ⟨r, hr, c, hc, rfl, rfl, hb⟩
    have h : ∀ r < 5, ∀ c < 8, ((dataAt 0x050 [] [(1, 60), (2, 27)]).byteAt (0x050 + r)).getLsbD (7 - c) = true →
        60 + c < 64 ∧ 27 + r < 32 := by decide
    exact h r hr c hc hb
  · intro col row h
    have e : (dataAt 0x050 [] [(1, 60), (2, 27)]).fb = fbClear := rfl
    rw [State.cell, e] at h
    unfold fbGet at h
    split at h
    · simp [fbClear] at h
    · cases h

/-- The last base that fits 15 rows, and no rows anywhere. -/
theorem test_witness_DrawTogglesItsSprite_memory :
    (dataAt 0xFF1 [] []).index.toNat + (0xF : Nibble).toNat ≤ 0x1000 ∧ (0x0 : Nibble).toNat = 0 ∧
    0x1000 < (dataAt 0xFF2 [] []).index.toNat + (0xF : Nibble).toNat ∧ 0 < (0xF : Nibble).toNat := by decide

/-- The same glyph one column further right leaves the frame. -/
theorem test_witness_DrawTogglesItsSprite_outside :
    let s := dataAt 0x050 [] [(1, 61), (2, 27)]
    (s.index.toNat + (5 : Nibble).toNat ≤ 0x1000 ∨ (5 : Nibble).toNat = 0) ∧
    ∃ col row, sets s 1 2 5 col row ∧ ¬ (col < 64 ∧ row < 32) :=
  ⟨by decide, 64, 27, ⟨0, by decide, 3, by decide, by decide, by decide, by decide⟩, by decide⟩

/-- L3-4: glyph 5 at the origin, twice. -/
theorem test_witness_DrawingTwiceRestoresTheFrame :
    let s := dataAt 0x069 [] []
    let t := did (.draw 1 2 5) s
    s.status = .running ∧ exec (.draw 1 2 5) s = .next t ∧ t.status = .running ∧ t.mem = t.mem ∧
    ({ t with pc := 0x20C } : State).fb = t.fb ∧ ({ t with pc := 0x20C } : State).index = t.index ∧
    (t.reg 1).toNat % 64 = (s.reg 1).toNat % 64 ∧ (t.reg 2).toNat % 32 = (s.reg 2).toNat % 32 ∧
    ((0, 0) ∈ s.drawPixels 1 2 5 ∧ s.cell 0 0 = false) :=
  ⟨rfl, rfl, rfl, rfl, rfl, rfl, by decide, by decide, by decide⟩

/-- Key 15 held and not held, and the first number above 15. -/
theorem test_witness_KeySkipsReadTheKeypad :
    ((regsSet [(1, 15)]).reg 1).toNat = (15 : Fin 16).val ∧
    ({ regsSet [(1, 15)] with keypad := keys [15] } : State).key 15 = true ∧ (regsSet [(1, 15)]).key 15 = false ∧
    15 < ((regsSet [(1, 16)]).reg 1).toNat := by decide

theorem test_witness_WaitKeyTakesTheHighestKey :
    (({ State.reset with keypad := keys [3, 9] } : State).key 9 = true ∧
      ∀ j : Fin 16, 9 < j → ({ State.reset with keypad := keys [3, 9] } : State).key j = false) ∧
    (({ State.reset with keypad := keys [15] } : State).key 15 = true ∧
      ∀ j : Fin 16, 15 < j → ({ State.reset with keypad := keys [15] } : State).key j = false) ∧
    ∀ k, State.reset.key k = false := by decide

theorem test_witness_WaitingCycleStaysInPlace :
    (wordAt 0xFFE 0xF20A).status = .running ∧ (wordAt 0xFFE 0xF20A).pc.toNat ≤ 0xFFE ∧
    decode (wordAt 0xFFE 0xF20A).fetchWord = .instr (.waitKey 2) ∧ ∀ k, (wordAt 0xFFE 0xF20A).key k = false := by decide

/-- A cycle of each kind: set-delay, set-sound, neither, and a fault. -/
theorem test_witness_TimersTickOnceACycle :
    (∃ t, step (wordAt 0x200 0xF015) = .next t ∧ t.status = .running ∧
      decode (wordAt 0x200 0xF015).fetchWord = .instr (.setDelay 0)) ∧
    (∃ t, step (wordAt 0x200 0xF018) = .next t ∧ t.status = .running ∧
      decode (wordAt 0x200 0xF018).fetchWord = .instr (.setSound 0)) ∧
    (∃ t, step (wordAt 0x200 0x600A) = .next t ∧ t.status = .running ∧
      (∀ x, decode (wordAt 0x200 0x600A).fetchWord ≠ .instr (.setDelay x)) ∧
      ∀ x, decode (wordAt 0x200 0x600A).fetchWord ≠ .instr (.setSound x)) ∧
    ∃ t, step (wordAt 0x200 0x00EE) = .next t ∧ t.status ≠ .running :=
  ⟨⟨_, rfl, by decide, by decide⟩, ⟨_, rfl, by decide, by decide⟩, ⟨_, rfl, by decide, by decide, by decide⟩,
    ⟨_, rfl, by decide⟩⟩

/-- Each of the six faults is raised by some cycle. -/
theorem test_witness_FaultsAreExactlyTheTabulatedOnes :
    State.reset.status = .running ∧
    statusOf (match step { State.reset with pc := 0xFFF } with | .next t => some t | _ => none) =
      some (.faulted (.fetchOutOfRange 0xFFF)) ∧
    statusOf (ran { State.reset with sp := 16 } 0x2300) = some (.faulted (.stackOverflow 0x200 0x2300)) ∧
    statusOf (ran State.reset 0x00EE) = some (.faulted (.stackUnderflow 0x200 0x00EE)) ∧
    statusOf (ran (dataAt 0xFFF [] []) 0xD122) = some (.faulted (.memoryOutOfRange 0x200 0xD122 0x1000)) ∧
    statusOf (ran (regsSet [(1, 16)]) 0xE1A1) = some (.faulted (.keyIndexOutOfRange 0x200 0xE1A1 16)) ∧
    statusOf (ran (dataAt 0x300 [(0x300, 0x80), (0x301, 0x01)] [(2, 31)]) 0xD122) =
      some (.faulted (.drawOutOfFrame 0x200 0xD122 7 32)) := by decide

/-- A fault at a fetchable `pc`, one at the first `pc` that is not, and a faulted block. -/
theorem test_witness_FaultsArePreciseAndSticky :
    (∃ t, step (wordAt 0x200 0x00EE) = .next t ∧ t.status ≠ (wordAt 0x200 0x00EE).status ∧
      (wordAt 0x200 0x00EE).pc.toNat ≤ 0xFFE) ∧
    (∃ t, step { State.reset with pc := 0xFFF } = .next t ∧ t.status ≠ .running ∧
      0xFFE < ({ State.reset with pc := 0xFFF } : State).pc.toNat) ∧
    (State.reset.takeFault (.fetchOutOfRange 0)).status ≠ .running :=
  ⟨⟨_, rfl, by decide, by decide⟩, ⟨_, rfl, by decide, by decide⟩, by decide⟩

theorem test_witness_FetchFaultsPastTheLastWord :
    (State.reset.status = .running ∧ 0xFFE < ({ State.reset with pc := 0xFFF } : State).pc.toNat) ∧
    ∃ t, step (wordAt 0xFFE 0x6001) = .next t ∧ (wordAt 0xFFE 0x6001).status = .running ∧
      (wordAt 0xFFE 0x6001).pc.toNat ≤ 0xFFE :=
  ⟨by decide, _, rfl, by decide, by decide⟩

/-- A store: its registers are outside the table's list and the byte after the block is outside its addresses. -/
theorem test_witness_OnlyTabulatedRegistersAreWritten :
    exec (.storeRegs 1) State.reset = .next (did (.storeRegs 1) State.reset) ∧
    (0 : Nibble) ∉ registersWritten (.storeRegs 1) ∧ (2 : Nibble) ∉ registersWritten (.loadRegs 1) :=
  ⟨rfl, by decide, by decide⟩

/-- A return, a wait and a no-op that do not fault. -/
theorem test_witness_PcAfterACycleIsAsTabulated :
    (∃ t, step { wordAt 0x204 0x00EE with sp := 1 } = .next t ∧ t.status = .running) ∧
    (∃ t, step (wordAt 0xFFE 0xF20A) = .next t ∧ t.status = .running) ∧
    ∃ t, step (wordAt 0xFFE 0xF0FF) = .next t ∧ t.status = .running :=
  ⟨⟨_, rfl, by decide⟩, ⟨_, rfl, by decide⟩, ⟨_, rfl, by decide⟩⟩

theorem test_witness_OnlyStoresChangeMemory :
    exec (.storeRegs 1) State.reset = .next (did (.storeRegs 1) State.reset) ∧
    2 ∉ addressesStored State.reset (.storeRegs 1) ∧ 0 ∉ addressesStored State.reset (.loadRegs 1) :=
  ⟨rfl, by decide, by decide⟩

/-- Each field changes under one of its writers. -/
theorem test_witness_OtherStateHasOnlyItsOwnWriters :
    (did (.loadIndex 5) State.reset).index ≠ State.reset.index ∧
    (did (.call 5) State.reset).stack ≠ State.reset.stack ∧ (did (.call 5) State.reset).sp ≠ State.reset.sp ∧
    (did (.setDelay 0) (regsSet [(0, 1)])).delay ≠ (regsSet [(0, 1)]).delay ∧
    (did (.setSound 0) (regsSet [(0, 1)])).sound ≠ (regsSet [(0, 1)]).sound ∧
    (did (.draw 0 0 1) (dataAt 0x050 [] [])).cell 0 0 ≠ (dataAt 0x050 [] []).cell 0 0 := by decide

/-- L3-6's store into code, and L3-7's call, from states that meet the invariants. -/
theorem test_witness_StepKeepsMemoryCanonical :
    (dataAt 0x300 [(0x301, 7), (0x300, 9), (0x300, 0)] []).memoryCanonical ∧
    ∃ t, step (wordAt 0x200 0xF055) = .next t ∧ (wordAt 0x200 0xF055).memoryCanonical :=
  ⟨by decide, _, rfl, by decide⟩

theorem test_witness_StepKeepsAddressesBounded :
    (wordAt 0xFFE 0x2FFF).addressesBounded ∧ ∃ t, step (wordAt 0xFFE 0x2FFF) = .next t :=
  ⟨⟨by decide, by decide⟩, _, rfl⟩

theorem test_witness_StepKeepsFaultAccounted :
    (∃ t, step (wordAt 0x200 0x00EE) = .next t ∧ (wordAt 0x200 0x00EE).faultAccounted) ∧
    ((wordAt 0x200 0x00EE).takeFault (.stackUnderflow 0x200 0x00EE)).faultAccounted := by
  refine ⟨⟨_, rfl, fun f h => ?_⟩, fun f h => ?_⟩
  · cases h
  · cases h
    exact ⟨rfl, fun w hw => by cases hw; exact ⟨by decide, by decide⟩, by decide, rfl⟩

/-- F055 at `I = 0xFF1` does not meet the condition of a memory fault; FF55 there does. -/
theorem test_fault_condition_reads_the_instruction :
    ¬ (dataAt 0xFF1 [] []).accessLeavesMemory (.storeRegs 0) ∧ (dataAt 0xFF1 [] []).accessLeavesMemory (.storeRegs 0xF) :=
  ⟨by unfold State.accessLeavesMemory; decide, by unfold State.accessLeavesMemory; decide⟩

/-- T6. -/
theorem test_witness_ParkedStaysParked : (wordAt 0x200 0x1200).parked :=
  ⟨by decide, by decide, 0x200, by decide, by decide⟩

/-- The largest image and the first that is too large. -/
theorem test_witness_LoadProgramWritesOnlyTheImage :
    (∃ image : List Byte, image.length ≤ 3584 ∧ 3583 < image.length) ∧ ∃ image : List Byte, 3584 < image.length :=
  ⟨⟨List.replicate 3584 0, by rw [List.length_replicate], by rw [List.length_replicate]; decide⟩,
    List.replicate 3585 0, by rw [List.length_replicate]; decide⟩

theorem test_witness_KeyOperationsChangeOneEntry : (14 : Fin 16) ≠ 15 ∧ 15 < 16 := by decide

theorem test_witness_OnlyInitializeLeavesFaulted :
    (State.reset.takeFault (.fetchOutOfRange 0)).status ≠ .running ∧
    (∃ t, hostWrite (.pc 0x200) (State.reset.takeFault (.fetchOutOfRange 0)) = .done t) ∧
    ∃ t, hostWrite (.status (.faulted (.fetchOutOfRange 1))) (State.reset.takeFault (.fetchOutOfRange 0)) = .done t :=
  ⟨by decide, ⟨_, rfl⟩, _, rfl⟩

theorem test_witness_RawWritesStoreOneField :
    16 ≤ 16 ∧ 16 < 17 ∧ State.reset.status = .running ∧ Status.faulted (.fetchOutOfRange 1) ≠ .running ∧
    (15 : Fin 16) ≠ 14 ∧ ((63, 31) : Pixel) ≠ (63, 30) ∧
    (State.reset.takeFault (.fetchOutOfRange 0)).status ≠ .running := by decide

end Sys2Proof.Tests
end

/-! # Rules about cycles: what they read, what an instruction leaves when it faults and when it does not -/

namespace Sys2Proof.Machine

/-! ## Reading the state of a cycle that has begun -/

variable {s t : State}

@[simp] theorem State.reg_beginCycle (s : State) (x : Nibble) : s.beginCycle.reg x = s.reg x := rfl

@[simp] theorem State.key_beginCycle (s : State) (k : Fin 16) : s.beginCycle.key k = s.key k := rfl

/-- Zero extension keeps the value of every field and register (R77). -/
theorem toNat_zext16 {k : Nat} (v : BitVec k) (h : k ≤ 16) : (zext16 v).toNat = v.toNat :=
  BitVec.toNat_setWidth_of_le h

/-- The target of jump-offset does not wrap: both summands are short (R107). -/
theorem toNat_zext16_add_zext16 (b : Byte) (nnn : Addr12) :
    (zext16 b + zext16 nnn).toNat = b.toNat + nnn.toNat := by
  have hb := b.isLt
  have hn := nnn.isLt
  rw [BitVec.toNat_add, toNat_zext16 b (by decide), toNat_zext16 nnn (by decide)]
  omega

/-- The advance from a `pc` that can be fetched from stays at or below 0x1000 (R72, R203). -/
theorem State.toNat_pc_add_two_le (hf : s.fetchFits) : (s.pc + 2).toNat ≤ 0x1000 := by
  have hfit : s.pc.toNat + 1 < 4096 := hf
  bv_omega

/-- The second advance of a skip stays at or below 0x1002 (R103, R203). -/
theorem State.toNat_pc_add_four_le (hf : s.fetchFits) : (s.pc + 4).toNat ≤ 0x1002 := by
  have hfit : s.pc.toNat + 1 < 4096 := hf
  bv_omega

/-- A skip in a cycle leaves `pc` at `A + 4` if it is taken, else at `A + 2` (R72, R103). -/
theorem State.pc_skipIf_beginCycle (s : State) (taken : Bool) :
    (s.beginCycle.skipIf taken).pc = if taken then s.pc + 4 else s.pc + 2 := by
  rw [State.skipIf_pc, State.beginCycle_pc, BitVec.add_assoc]
  rfl

/-- A framebuffer is what its cells are (R33). -/
theorem State.fb_eq_of_cells (h : ∀ col row, t.cell col row = s.cell col row) : t.fb = s.fb := by
  refine Vector.ext fun col hc => Vector.ext fun row hr => ?_
  have hcell := h col row
  have hin : inFrame (col, row) := ⟨hc, hr⟩
  simpa only [State.cell, fbGet, dif_pos hin] using hcell

/-! ## What a footprint names, instruction by instruction -/

@[simp] theorem footprint_regs (s : State) (i : Instr) : (footprint s i).regs = registersWritten i := by
  cases i <;> rfl

/-- R28: the writers of `I`. -/
theorem writer_of_footprint_index {i : Instr} (h : (footprint s i).index ≠ false) :
    (∃ nnn, i = .loadIndex nnn) ∨ (∃ x, i = .addIndex x) ∨ ∃ x, i = .loadFontGlyph x := by
  cases i
  case loadIndex nnn => exact .inl ⟨nnn, rfl⟩
  case addIndex x => exact .inr (.inl ⟨x, rfl⟩)
  case loadFontGlyph x => exact .inr (.inr ⟨x, rfl⟩)
  all_goals exact absurd rfl h

/-- R29: call alone writes the stack, in the entry `SP` names. -/
theorem writer_of_footprint_stackEntries {i : Instr} {k : Nat} (h : k ∈ (footprint s i).stackEntries) :
    (∃ nnn, i = .call nnn) ∧ k = s.sp.val := by
  cases i
  case call nnn => exact ⟨⟨nnn, rfl⟩, List.mem_singleton.1 h⟩
  all_goals cases h

/-- R29: the writers of `SP`. -/
theorem writer_of_footprint_sp {i : Instr} (h : (footprint s i).sp ≠ false) : i = .ret ∨ ∃ nnn, i = .call nnn := by
  cases i
  case ret => exact .inl rfl
  case call nnn => exact .inr ⟨nnn, rfl⟩
  all_goals exact absurd rfl h

/-- R33: the writers of the framebuffer. -/
theorem writer_of_footprint_cells {i : Instr} (h : (footprint s i).cells ≠ false) :
    i = .clearScreen ∨ ∃ x y n, i = .draw x y n := by
  cases i
  case clearScreen => exact .inl rfl
  case draw x y n => exact .inr ⟨x, y, n, rfl⟩
  all_goals exact absurd rfl h

/-- R31: the writer of `DT`. -/
theorem writer_of_footprint_delay {i : Instr} (h : (footprint s i).delay ≠ false) : ∃ x, i = .setDelay x := by
  cases i
  case setDelay x => exact ⟨x, rfl⟩
  all_goals exact absurd rfl h

/-- R31: the writer of `ST`. -/
theorem writer_of_footprint_sound {i : Instr} (h : (footprint s i).sound ≠ false) : ∃ x, i = .setSound x := by
  cases i
  case setSound x => exact ⟨x, rfl⟩
  all_goals exact absurd rfl h

/-! ## What an instruction leaves, whether it faults or not -/

/-- The footprint of an instruction, with the fault status it may end in. -/
def footprintWithFault (s : State) (i : Instr) : Footprint := { footprint s i with status := true }

/-- Every next state of an instruction, a fault's included, stays in the footprint but for `status` (R202). -/
theorem exec_onlyChanges {i : Instr} (h : exec i s = .next t) : OnlyChanges (footprintWithFault s i) s t := by
  rcases exec_cases h with hc | ⟨r, rfl⟩
  · exact { hc with status := nofun }
  · exact .takeFault rfl r

/-- An instruction that ends running stayed in its footprint: a fault would have ended it Faulted (R202). -/
theorem exec_onlyChanges_of_running {i : Instr} (h : exec i s = .next t) (ht : t.status = .running) :
    OnlyChanges (footprint s i) s t := by
  rcases exec_cases h with hc | ⟨r, rfl⟩
  · exact hc
  · cases ht

/-- What raises a fault does not end running (R202). -/
theorem raise_ne_next_running {f : Fault} (ht : t.status = .running) : raise f s ≠ .next t := by
  intro h
  cases h
  cases ht

/-! ## Call, return and the keypad lookup when they do not fault -/

/-- A call that does not fault found room, pushed `pc` and jumped (R102). -/
theorem execCall_of_running {nnn : Addr12} (h : exec (.call nnn) s = .next t) (ht : t.status = .running) :
    ∃ hs : s.sp.val < 16, t.pc = zext16 nnn ∧ t.stack = s.stack.set s.sp.val s.pc hs := by
  by_cases hs : s.sp.val < 16
  · simp only [exec, execCall, s.push_eq _ hs] at h
    cases h
    exact ⟨hs, rfl, rfl⟩
  · simp only [exec, execCall, s.push_full _ (by omega)] at h
    exact absurd h (raise_ne_next_running ht)

/-- A return that does not fault jumped to the top entry (R100). -/
theorem execRet_of_running (h : exec .ret s = .next t) (ht : t.status = .running) :
    ∃ (k : Nat) (hk : k < 16), s.sp.val = k + 1 ∧ t.pc = s.stack[k] := by
  by_cases hs : 0 < s.sp.val
  · simp only [exec, execRet, s.pop_eq hs] at h
    cases h
    exact ⟨s.sp.val - 1, by omega, by omega, rfl⟩
  · simp only [exec, execRet, s.pop_empty (by omega)] at h
    exact absurd h (raise_ne_next_running ht)

/-- A key lookup that does not fault went on with the entry of the key that `Vx` names (R180, R181). -/
theorem State.withKey_of_running {x : Nibble} {go : Bool → Outcome} (h : s.withKey x go = .next t)
    (ht : t.status = .running) :
    ∃ down, (down = true ↔ ∃ k : Fin 16, k.val = (s.reg x).toNat ∧ s.key k = true) ∧ go down = .next t := by
  unfold State.withKey at h
  split at h
  case isTrue hk =>
    refine ⟨s.key ⟨(s.reg x).toNat, hk⟩, ⟨fun hkey => ⟨_, rfl, hkey⟩, ?_⟩, h⟩
    rintro ⟨k, hval, hkey⟩
    rwa [show k = ⟨(s.reg x).toNat, hk⟩ from Fin.ext hval] at hkey
  case isFalse => exact absurd h (raise_ne_next_running ht)

/-- wait-key goes on when some key is pressed and goes back to its own address when none is (R182). -/
theorem pc_of_exec_waitKey {x : Nibble} (h : exec (.waitKey x) s = .next t) :
    t.pc = if ∃ k, s.key k = true then s.pc else s.pc - 2 := by
  simp only [exec, execWaitKey] at h
  cases hk : s.scanKeys with
  | some k =>
    rw [hk] at h
    cases h
    exact (if_pos ⟨k, (State.scanKeys_eq_some.1 hk).1⟩).symm
  | none =>
    rw [hk] at h
    cases h
    refine (if_neg ?_).symm
    rintro ⟨k, hkey⟩
    simp [State.scanKeys_eq_none.1 hk k] at hkey

/-! ## A completed cycle -/

/-- A cycle that starts and ends running fetched, executed without a fault and stepped the timers (R70). -/
theorem completed_cycle (hs : s.status = .running) (h : step s = .next t) (ht : t.status = .running) :
    s.fetchFits ∧ ∃ u, executeDecoded (decode s.fetchWord) s.beginCycle = .next u ∧ u.status = .running ∧
      t = u.timerStep := by
  rcases step_cases h with ⟨hn, -⟩ | ⟨-, -, rfl⟩ | ⟨-, hf, u, hu, ⟨hr, rfl⟩ | ⟨f, -, rfl⟩⟩
  · exact absurd hs hn
  · cases ht
  · exact ⟨hf, u, hu, hr, rfl⟩
  · cases ht

end Sys2Proof.Machine

/-! # The whole-machine statements about the state (10_state.md) -/

namespace Sys2Proof.Machine

variable {s t : State}

/-! ## Where a cycle leaves pc (R26) -/

/-- Settles O42: the instructions whose footprint names `pc` one by one, and every other word at once. -/
theorem pcAfterACycleIsAsTabulated : Obligations.PcAfterACycleIsAsTabulated := by
  intro s t hs h ht
  obtain ⟨-, u, hu, hur, rfl⟩ := completed_cycle hs h ht
  rw [State.timerStep_pc]
  cases hd : decode s.fetchWord with
  | noOp w =>
    rw [hd] at hu
    cases hu
    rfl
  | instr i =>
    rw [hd] at hu
    change exec i s.beginCycle = .next u at hu
    have hother : (footprint s.beginCycle i).pc = false → u.pc = s.pc + 2 := (exec_onlyChanges_of_running hu hur).pc
    cases i
    case jump nnn =>
      cases hu
      exact toNat_zext16 nnn (by decide)
    case call nnn =>
      obtain ⟨-, hpc, -⟩ := execCall_of_running hu hur
      exact (congrArg BitVec.toNat hpc).trans (toNat_zext16 nnn (by decide))
    case jumpOffset nnn =>
      cases hu
      exact toNat_zext16_add_zext16 (s.reg 0) nnn
    case ret => exact (execRet_of_running hu hur :)
    case skipEqConst x kk | skipNeqConst x kk | skipEqReg x y | skipNeqReg x y =>
      cases hu
      exact (State.pc_skipIf_beginCycle s _).trans (by simp)
    case skipKeyPressed x | skipKeyNotPressed x =>
      simp only [exec, execSkipKeyPressed, execSkipKeyNotPressed] at hu
      obtain ⟨down, hdown, hgo⟩ := State.withKey_of_running hu hur
      cases hgo
      simp only [State.reg_beginCycle, State.key_beginCycle] at hdown
      exact (State.pc_skipIf_beginCycle s _).trans (by cases down <;> simp [← hdown])
    case waitKey x =>
      rw [pc_of_exec_waitKey hu]
      simp
    all_goals exact hother rfl

/-! ## Addresses stay bounded (R27) -/

/-- The table of R26 keeps `pc` at or below jump-offset's largest target (R107). -/
theorem pc_le_of_completed_cycle (hb : s.addressesBounded) (hs : s.status = .running) (h : step s = .next t)
    (ht : t.status = .running) : t.pc.toNat ≤ 0x10FE := by
  obtain ⟨hpc, hstack⟩ := hb
  obtain ⟨hf, -⟩ := completed_cycle hs h ht
  have h2 : (s.pc + 2).toNat ≤ 0x1000 := State.toNat_pc_add_two_le hf
  have h4 : (s.pc + 4).toNat ≤ 0x1002 := State.toNat_pc_add_four_le hf
  have htable := pcAfterACycleIsAsTabulated s t hs h ht
  cases hd : decode s.fetchWord with
  | noOp w =>
    rw [hd] at htable
    exact (congrArg BitVec.toNat htable).trans_le (h2.trans (by decide))
  | instr i =>
    rw [hd] at htable
    cases i
    case jump nnn | call nnn | jumpOffset nnn => exact htable.trans_le (by omega)
    case ret =>
      obtain ⟨k, hk, -, hret⟩ := htable
      have hentry := hstack k hk
      rw [hret]
      omega
    case skipEqConst | skipNeqConst | skipEqReg | skipNeqReg | skipKeyPressed | skipKeyNotPressed | waitKey =>
      dsimp only at htable
      rw [htable]
      split <;> omega
    all_goals exact (congrArg BitVec.toNat htable).trans_le (h2.trans (by decide))

/-- A stack entry after an instruction is the one before or the return address a call pushed (R102). -/
theorem stack_entry_of_exec {i : Instr} (h : exec i s = .next t) (ht : t.status = .running) (k : Nat) (hk : k < 16) :
    t.stack[k] = s.stack[k] ∨ t.stack[k] = s.pc := by
  by_cases hmem : k ∈ (footprint s i).stackEntries
  · obtain ⟨⟨nnn, rfl⟩, rfl⟩ := writer_of_footprint_stackEntries hmem
    obtain ⟨hroom, -, hstack⟩ := execCall_of_running h ht
    right
    simp [hstack]
  · exact .inl ((exec_onlyChanges_of_running h ht).stack k hk hmem)

/-- Every return address after a completed cycle is an old one or the address past a call (R72, R102). -/
theorem stack_entry_of_completed_cycle (hs : s.status = .running) (h : step s = .next t) (ht : t.status = .running)
    (k : Nat) (hk : k < 16) : t.stack[k] = s.stack[k] ∨ t.stack[k] = s.pc + 2 := by
  obtain ⟨-, u, hu, hur, rfl⟩ := completed_cycle hs h ht
  cases hd : decode s.fetchWord with
  | noOp w =>
    rw [hd] at hu
    cases hu
    exact .inl rfl
  | instr i =>
    rw [hd] at hu
    exact stack_entry_of_exec (s := s.beginCycle) hu hur k hk

/-- A cycle that leaves the block Faulted changed `status` alone, or nothing (R202). -/
theorem pc_stack_of_faulted_cycle (h : step s = .next t) (ht : t.status ≠ .running) :
    t.pc = s.pc ∧ t.stack = s.stack := by
  rcases step_cases h with ⟨-, rfl⟩ | ⟨-, -, rfl⟩ | ⟨-, -, u, -, ⟨hr, rfl⟩ | ⟨f, -, rfl⟩⟩
  · exact ⟨rfl, rfl⟩
  · exact ⟨rfl, rfl⟩
  · exact absurd hr ht
  · exact ⟨rfl, rfl⟩

/-- Only a running block has a cycle that ends running (R202, R207). -/
theorem running_before_of_running_after (h : step s = .next t) (ht : t.status = .running) : s.status = .running := by
  by_contra hs
  rw [step_of_faulted hs] at h
  cases h
  exact hs ht

/-- Settles O46: a cycle that faults keeps `pc` and the stack; one that completes leaves `pc` by the table of R26 and
pushes at most the address past the call. -/
theorem stepKeepsAddressesBounded : Obligations.StepKeepsAddressesBounded := by
  intro s t hb h
  by_cases ht : t.status = .running
  · have hs := running_before_of_running_after h ht
    refine ⟨pc_le_of_completed_cycle hb hs h ht, fun k hk => ?_⟩
    obtain ⟨-, hentries⟩ := hb
    obtain ⟨hf, -⟩ := completed_cycle hs h ht
    rcases stack_entry_of_completed_cycle hs h ht k hk with hold | hpushed
    · rw [hold]
      exact hentries k hk
    · rw [hpushed]
      exact State.toNat_pc_add_two_le hf
  · obtain ⟨hpc, hstack⟩ := pc_stack_of_faulted_cycle h ht
    simpa only [State.addressesBounded, hpc, hstack] using hb

/-! ## Writers of each field (R24, R28 to R34) -/

/-- Settles O41: the registers of an instruction's footprint are those of the table. -/
theorem onlyTabulatedRegistersAreWritten : Obligations.OnlyTabulatedRegistersAreWritten := by
  intro i s t h x hx
  exact (exec_onlyChanges h).regs x (by simpa [footprintWithFault] using hx)

/-- Settles O44: a field that changed is named by the footprint, so the instruction is one of its writers. -/
theorem otherStateHasOnlyItsOwnWriters : Obligations.OtherStateHasOnlyItsOwnWriters := by
  intro i s t h
  have hc := exec_onlyChanges h
  refine ⟨hc.keypad, hc.op, fun hne => writer_of_footprint_index (mt hc.index hne), fun hne => ?_,
    fun hne => writer_of_footprint_sp (mt hc.sp hne), fun hne => ?_,
    fun hne => writer_of_footprint_delay (mt hc.delay hne), fun hne => writer_of_footprint_sound (mt hc.sound hne)⟩
  · by_contra hcall
    refine hne (Vector.ext fun k hk => hc.stack k hk fun hmem => hcall ?_)
    exact (writer_of_footprint_stackEntries hmem).1
  · refine writer_of_footprint_cells (mt hc.cells fun hcells => hne ?_)
    exact State.fb_eq_of_cells hcells

/-! ## The parked state (R222) -/

/-- The cycle of a parked state latches `op`, jumps to where it is and steps the timers (R71, R101, R190). -/
theorem step_of_parked (h : s.parked) :
    step s = .next { s with op := s.fetchWord, delay := tick s.delay, sound := tick s.sound } := by
  obtain ⟨hs, hf, nnn, hd, htarget⟩ := h
  have hexec : executeDecoded (decode s.fetchWord) s.beginCycle = .next (s.beginCycle.jumpTo s.pc) := by
    rw [hd, ← htarget]
    rfl
  rw [step_of_fits hs hf, hexec, finishCycle_of_running s (t := s.beginCycle.jumpTo s.pc) hs]
  rfl

/-- Parking speaks of the status, `pc` and memory alone. -/
theorem State.parked_of_same (h : s.parked) (hstatus : t.status = s.status) (hpc : t.pc = s.pc) (hmem : t.mem = s.mem) :
    t.parked := by
  simpa only [State.parked, State.fetchFits, State.fetchWord, State.byteAt, hstatus, hpc, hmem] using h

/-- Settles O49: the next state of a parked one is written out, and it has the same status, `pc` and memory. -/
theorem parkedStaysParked : Obligations.ParkedStaysParked :=
  fun _ h => ⟨_, step_of_parked h, State.parked_of_same h rfl rfl rfl, rfl⟩

/-! ## The reset state (R40) -/

theorem State.reg_reset (x : Nibble) : State.reset.reg x = 0 := by simp [State.reg, State.reset]

/-- Reset memory lists nothing, so every address reads as its reset contents. -/
theorem State.byteAt_reset (a : Nat) : State.reset.byteAt a = resetByte a := rfl

theorem length_font : Config.font.length = 80 := rfl

theorem resetByte_below_font {a : Nat} (h : a < 0x050) : resetByte a = 0 := if_neg (Nat.not_le.2 h)

theorem resetByte_font (k : Nat) (h : k < Config.font.length) : resetByte (0x050 + k) = Config.font[k] := by
  simp [resetByte, h]

theorem resetByte_above_font {a : Nat} (h : 0x0A0 ≤ a) : resetByte a = 0 := by
  have hout : Config.font.length ≤ a - 0x050 := by rw [length_font]; omega
  simp [resetByte, hout]

theorem State.key_reset (k : Fin 16) : State.reset.key k = false := by simp [State.key, State.reset]

theorem State.cell_reset (col row : Nat) : State.reset.cell col row = false := fbGet_fbClear (col, row)

theorem State.stack_reset (k : Nat) (h : k < 16) : State.reset.stack[k] = 0 := by simp [State.reset]

/-- Settles O1: memory reads as `resetByte`, region by region, and every other field is written out in `State.reset`. -/
theorem resetLeavesEveryFieldAsTabulated : Obligations.ResetLeavesEveryFieldAsTabulated :=
  ⟨State.reg_reset, fun a h => (State.byteAt_reset a).trans (resetByte_below_font h), length_font,
    fun k h => (State.byteAt_reset _).trans (resetByte_font k h),
    fun a h _ => (State.byteAt_reset a).trans (resetByte_above_font h), rfl, rfl, State.stack_reset, rfl, rfl, rfl,
    State.key_reset, State.cell_reset, rfl, rfl⟩

theorem State.addressesBounded_reset : State.reset.addressesBounded :=
  ⟨by decide, fun k h => by simp [State.stack_reset k h]⟩

/-- Settles O48: the reset state is running, so there is no fault to account for. -/
theorem resetMeetsTheInvariants : Obligations.ResetMeetsTheInvariants :=
  ⟨memWf_reset, State.addressesBounded_reset, fun _ hf => by cases hf⟩

/-! ## Leaving Faulted (R35, R207) -/

theorem status_of_hostLoadProgram {image : List Byte} (h : hostLoadProgram image s = .done t) : t.status = s.status := by
  unfold hostLoadProgram at h
  split at h <;> cases h
  rfl

theorem status_of_hostSetKeyTo {k : Nat} {pressed : Bool} (h : hostSetKeyTo k pressed s = .done t) :
    t.status = s.status := by
  unfold hostSetKeyTo at h
  split at h <;> cases h
  rfl

/-- A raw write of Running to a faulted block is refused (log entry 10). -/
theorem hostWrite_running_of_faulted (hs : s.status ≠ .running) :
    hostWrite (.status .running) s = .refused .faultLatched := by
  cases hst : s.status with
  | running => exact absurd hst hs
  | faulted r => simp only [hostWrite, hst]

/-- Every other raw write of `status` is done (R37, R221). -/
theorem hostWrite_status {st : Status} (h : s.status = .running ∨ st ≠ .running) :
    hostWrite (.status st) s = .done { s with status := st } := by
  simp only [hostWrite]
  split
  case h_1 hst => simp [hst] at h
  case h_2 => rfl

/-- No raw write makes a faulted block Running: the one write that would is refused. -/
theorem status_of_hostWrite_of_faulted {field : HostField} (hs : s.status ≠ .running)
    (h : hostWrite field s = .done t) : t.status ≠ .running := by
  cases field
  case sp n =>
    simp only [hostWrite] at h
    split at h <;> cases h
    exact hs
  case status st =>
    by_cases hst : st = .running
    · rw [hst, hostWrite_running_of_faulted hs] at h
      cases h
    · rw [hostWrite_status (.inr hst)] at h
      cases h
      exact hst
  all_goals
    cases h
    exact hs

/-- Settles O53, operation by operation. -/
theorem onlyInitializeLeavesFaulted : Obligations.OnlyInitializeLeavesFaulted := by
  intro s hs
  refine ⟨fun t h => ?_, fun _ _ => status_of_hostLoadProgram, fun _ _ _ => status_of_hostSetKeyTo,
    fun _ _ => status_of_hostWrite_of_faulted hs⟩
  rw [step_of_faulted hs] at h
  cases h
  rfl

end Sys2Proof.Machine

/-! # The statements about memory (20_memory.md) -/

namespace Sys2Proof.Machine

variable {s t : State}

/-! ## What an instruction leaves in memory (R55) -/

theorem mem_of_exec_ret (h : exec .ret s = .next t) : t.mem = s.mem := by
  simp only [exec, execRet] at h
  by_cases hs : 0 < s.sp.val
  · rw [s.pop_eq hs] at h
    cases h
    rfl
  · rw [s.pop_empty (by omega)] at h
    cases h
    rfl

theorem mem_of_exec_call {nnn : Addr12} (h : exec (.call nnn) s = .next t) : t.mem = s.mem := by
  simp only [exec, execCall] at h
  by_cases hs : s.sp.val < 16
  · rw [s.push_eq _ hs] at h
    cases h
    rfl
  · rw [s.push_full _ (by omega)] at h
    cases h
    rfl

theorem mem_of_exec_draw {x y n : Nibble} (h : exec (.draw x y n) s = .next t) : t.mem = s.mem := by
  rcases State.withDataRange_cases h with ⟨-, hplot⟩ | ⟨a, -, -, rfl⟩
  · rcases State.plotAtEdge_cases hplot with ⟨-, rfl⟩ | ⟨p, -, rfl⟩ <;> rfl
  · rfl

/-- Looking a key up leaves memory as the instruction goes on to leave it (R180, R181). -/
theorem State.mem_of_withKey {x : Nibble} {go : Bool → Outcome} (h : s.withKey x go = .next t)
    (hgo : ∀ down, go down = .next t → t.mem = s.mem) : t.mem = s.mem := by
  unfold State.withKey at h
  split at h
  case isTrue => exact hgo _ h
  case isFalse =>
    cases h
    rfl

theorem mem_of_exec_waitKey {x : Nibble} (h : exec (.waitKey x) s = .next t) : t.mem = s.mem := by
  simp only [exec, execWaitKey] at h
  split at h
  all_goals
    cases h
    rfl

theorem mem_of_exec_loadRegs {x : Nibble} (h : exec (.loadRegs x) s = .next t) : t.mem = s.mem := by
  rcases State.withDataRange_cases h with ⟨-, hload⟩ | ⟨a, -, -, rfl⟩
  · cases hload
    rfl
  · rfl

/-- A range-checked store writes its block or, when it faults, leaves memory as it was (R58, R202). -/
theorem State.mem_of_checked_writeBlock {count : Nat} {bytes : List Byte}
    (h : s.withDataRange count (.next (s.writeBlock bytes)) = .next t) :
    t.mem = s.mem ∨ t.mem = (s.writeBlock bytes).mem := by
  rcases State.withDataRange_cases h with ⟨-, hstore⟩ | ⟨a, -, -, rfl⟩
  · cases hstore
    exact .inr rfl
  · exact .inl rfl

/-- All that an instruction can do to memory: leave it as it is, or write one block at `I` (R54, R55). -/
theorem mem_of_exec {i : Instr} (h : exec i s = .next t) :
    t.mem = s.mem ∨ ∃ bytes, t.mem = (s.writeBlock bytes).mem := by
  cases i
  case storeBcd x | storeRegs x =>
    exact (State.mem_of_checked_writeBlock h).imp_right fun hstore => ⟨_, hstore⟩
  case ret => exact .inl (mem_of_exec_ret h)
  case call nnn => exact .inl (mem_of_exec_call h)
  case draw x y n => exact .inl (mem_of_exec_draw h)
  case waitKey x => exact .inl (mem_of_exec_waitKey h)
  case loadRegs x => exact .inl (mem_of_exec_loadRegs h)
  case skipKeyPressed x | skipKeyNotPressed x =>
    simp only [exec, execSkipKeyPressed, execSkipKeyNotPressed] at h
    refine .inl (State.mem_of_withKey h fun down hgo => ?_)
    cases hgo
    exact s.skipIf_mem _
  case skipEqConst | skipNeqConst | skipEqReg | skipNeqReg =>
    cases h
    exact .inl (s.skipIf_mem _)
  all_goals
    cases h
    exact .inl rfl

/-! ## The canonical form (R50, R55) -/

theorem exec_keeps_memoryCanonical {i : Instr} (hm : s.memoryCanonical) (h : exec i s = .next t) :
    t.memoryCanonical := by
  unfold State.memoryCanonical
  rcases mem_of_exec h with hsame | ⟨bytes, hstore⟩
  · rwa [hsame]
  · rw [hstore, State.writeBlock_mem]
    exact memWf_memWriteBlock hm _ _ _ _

theorem executeDecoded_keeps_memoryCanonical {d : Decoded} (hm : s.memoryCanonical)
    (h : executeDecoded d s = .next t) : t.memoryCanonical := by
  cases d with
  | instr i => exact exec_keeps_memoryCanonical hm h
  | noOp w =>
    cases h
    exact hm

/-- Settles O45: beside the execute step a cycle writes no memory, and a cycle that faults keeps the memory it began
with. -/
theorem stepKeepsMemoryCanonical : Obligations.StepKeepsMemoryCanonical := by
  intro s t hm h
  rcases step_cases h with ⟨-, rfl⟩ | ⟨-, -, rfl⟩ | ⟨-, -, u, hu, ⟨-, rfl⟩ | ⟨f, -, rfl⟩⟩
  · exact hm
  · exact hm
  · have hexec : u.memoryCanonical := executeDecoded_keeps_memoryCanonical (s := s.beginCycle) hm hu
    exact hexec
  · exact hm

/-! ## Where memory changes (R54, R55) -/

@[simp] theorem footprint_stored (s : State) (i : Instr) : (footprint s i).stored = addressesStored s i := by
  cases i <;> rfl

/-- Settles O43: the addresses of an instruction's footprint are those it stores to. -/
theorem onlyStoresChangeMemory : Obligations.OnlyStoresChangeMemory := by
  intro i s t h a ha
  exact (exec_onlyChanges h).bytes a (by simpa [footprintWithFault] using ha)

/-! ## Fetching what was stored (R52, R64, R154) -/

/-- store-regs inside memory writes the block of `V[0]` to `V[x]` (R58, R154). -/
theorem exec_storeRegs_of_fits {x : Nibble} (h : s.index.toNat + x.toNat ≤ 0xFFF) :
    exec (.storeRegs x) s = .next (s.writeBlock (s.regsUpTo x)) :=
  s.withDataRange_ok _ (by omega)

/-- Inside memory, byte `y` of the block that store-regs writes is `V[y]` (R154). -/
theorem State.byteAt_writeBlock_regsUpTo {x y : Nibble} (h : s.index.toNat + x.toNat ≤ 0xFFF)
    (hy : y.toNat ≤ x.toNat) :
    (s.writeBlock (s.regsUpTo x)).byteAt (s.index.toNat + y.toNat) = s.reg y := by
  have hmem : s.index.toNat + (s.regsUpTo x).length ≤ Config.memSize := by
    rw [State.length_regsUpTo, Config.memSize_eq]
    omega
  have hlt : y.toNat < (s.regsUpTo x).length := by
    rw [State.length_regsUpTo]
    omega
  rw [s.byteAt_writeBlock _ hmem]
  simpa [Nat.lt_succ_of_le hy] using s.getElem_regsUpTo x y hlt

/-- Settles O29: the two bytes at `pc` are bytes `r` and `r + 1` of the stored block, and a block write keeps `op`. -/
theorem laterFetchSeesTheStore : Obligations.LaterFetchSeesTheStore := by
  intro x s t u r r' hfit h hmem hpc hr' hle
  rw [exec_storeRegs_of_fits hfit] at h
  cases h
  have hhigh : u.byteAt u.pc.toNat = s.reg r := by
    rw [State.byteAt_congr hmem, hpc]
    exact State.byteAt_writeBlock_regsUpTo hfit (by omega)
  have hlow : u.byteAt (u.pc.toNat + 1) = s.reg r' := by
    rw [State.byteAt_congr hmem, hpc, Nat.add_assoc, ← hr']
    exact State.byteAt_writeBlock_regsUpTo hfit hle
  exact ⟨rfl, congrArg₂ joinBytes hhigh hlow⟩

end Sys2Proof.Machine

/-! # The statements about encoding (30_encoding.md) -/

namespace Sys2Proof

variable {w w' : Word} {i : Instr}

/-! ## Agreeing under a nibble mask is agreeing on the fields it keeps (R76, R85) -/

theorem packNibbles_inj {c x y n c' x' y' n' : Nibble} :
    packNibbles c x y n = packNibbles c' x' y' n' ↔ c = c' ∧ x = x' ∧ y = y' ∧ n = n' := by
  refine ⟨fun h => ⟨?_, ?_, ?_, ?_⟩, by rintro ⟨rfl, rfl, rfl, rfl⟩; rfl⟩
  · simpa using congrArg classOf h
  · simpa using congrArg fieldX h
  · simpa using congrArg fieldY h
  · simpa using congrArg fieldN h

/-- A mask acts on each nibble apart. -/
theorem and_packNibbles (w : Word) (c x y n : Nibble) :
    w &&& packNibbles c x y n = packNibbles (classOf w &&& c) (fieldX w &&& x) (fieldY w &&& y) (fieldN w &&& n) := by
  conv_lhs => rw [← packNibbles_fields w]
  exact BitVec.and_append.trans (congrArg (· ++ _) (BitVec.and_append.trans (congrArg (· ++ _) BitVec.and_append)))

theorem nibble_and_fifteen (x : Nibble) : x &&& 15#4 = x := BitVec.and_allOnes

theorem and_FF0F (w : Word) : w &&& 0xFF0F#16 = packNibbles (classOf w) (fieldX w) 0#4 (fieldN w) := by
  rw [show 0xFF0F#16 = packNibbles 0xF 0xF 0x0 0xF by decide, and_packNibbles]
  simp [nibble_and_fifteen]

theorem and_FFF0 (w : Word) : w &&& 0xFFF0#16 = packNibbles (classOf w) (fieldX w) (fieldY w) 0#4 := by
  rw [show 0xFFF0#16 = packNibbles 0xF 0xF 0xF 0x0 by decide, and_packNibbles]
  simp [nibble_and_fifteen]

theorem and_FFFF (w : Word) : w &&& 0xFFFF#16 = w := BitVec.and_allOnes

theorem agree_F000 : w &&& 0xF000#16 = w' &&& 0xF000#16 ↔ classOf w = classOf w' := by
  simp [and_F000, packNibbles_inj]

theorem agree_F00F : w &&& 0xF00F#16 = w' &&& 0xF00F#16 ↔ classOf w = classOf w' ∧ fieldN w = fieldN w' := by
  simp [and_F00F, packNibbles_inj]

theorem agree_F0FF : w &&& 0xF0FF#16 = w' &&& 0xF0FF#16 ↔ classOf w = classOf w' ∧ fieldKk w = fieldKk w' := by
  rw [and_F0FF, and_F0FF]
  refine ⟨fun h => ⟨?_, ?_⟩, fun ⟨hc, hk⟩ => by rw [hc, hk]⟩
  · simpa using congrArg classOf h
  · simpa using congrArg fieldKk h

theorem agree_FF0F : w &&& 0xFF0F#16 = w' &&& 0xFF0F#16 ↔
    classOf w = classOf w' ∧ fieldX w = fieldX w' ∧ fieldN w = fieldN w' := by
  simp [and_FF0F, packNibbles_inj]

theorem agree_FFF0 : w &&& 0xFFF0#16 = w' &&& 0xFFF0#16 ↔
    classOf w = classOf w' ∧ fieldX w = fieldX w' ∧ fieldY w = fieldY w' := by
  simp [and_FFF0, packNibbles_inj]

/-! ## The rows of the opcode map (R90) -/

theorem encode_covered (i : Instr) : (opcodeRow i).covers (encode i) = true := by
  cases i
  case jump | call | skipEqConst | skipNeqConst | skipEqReg | loadConst | addConst | skipNeqReg | loadIndex | jumpOffset |
      random | draw =>
    exact Laws.RowMatch.classOnly (by simp [encode]; decide)
  case loadDelay | waitKey | setDelay | setSound | addIndex | loadFontGlyph | storeBcd | storeRegs | loadRegs =>
    exact Laws.RowMatch.lowByte (by decide)
  all_goals exact Laws.RowMatch.nibbles (by decide)

/-- A row covers the words that agree with its instruction's encoding on the opcode bits. -/
theorem covers_iff : (opcodeRow i).covers w = true ↔ w &&& (opcodeRow i).mask = encode i &&& (opcodeRow i).mask := by
  have hvalue : encode i &&& (opcodeRow i).mask = (opcodeRow i).value := eq_of_beq (encode_covered i)
  rw [hvalue]
  exact beq_iff_eq

/-- Every opcode bit is a bit the decoder reads. -/
theorem reads_and_mask (i : Instr) : (opcodeRow i).reads &&& (opcodeRow i).mask = (opcodeRow i).mask := by
  cases i <;> (simp only [opcodeRow]; decide)

/-! ## What the words of a row decode to (R75 to R82) -/

/-- The instruction of the same row whose operands are the fields of `w` (R75, R76). -/
def Instr.withOperands (w : Word) : Instr → Instr
  | .clearScreen => .clearScreen
  | .ret => .ret
  | .jump _ => .jump (fieldNnn w)
  | .call _ => .call (fieldNnn w)
  | .skipEqConst _ _ => .skipEqConst (fieldX w) (fieldKk w)
  | .skipNeqConst _ _ => .skipNeqConst (fieldX w) (fieldKk w)
  | .skipEqReg _ _ => .skipEqReg (fieldX w) (fieldY w)
  | .loadConst _ _ => .loadConst (fieldX w) (fieldKk w)
  | .addConst _ _ => .addConst (fieldX w) (fieldKk w)
  | .loadReg _ _ => .loadReg (fieldX w) (fieldY w)
  | .orReg _ _ => .orReg (fieldX w) (fieldY w)
  | .andReg _ _ => .andReg (fieldX w) (fieldY w)
  | .xorReg _ _ => .xorReg (fieldX w) (fieldY w)
  | .addReg _ _ => .addReg (fieldX w) (fieldY w)
  | .sub _ _ => .sub (fieldX w) (fieldY w)
  | .shr _ => .shr (fieldX w)
  | .subn _ _ => .subn (fieldX w) (fieldY w)
  | .shl _ => .shl (fieldX w)
  | .skipNeqReg _ _ => .skipNeqReg (fieldX w) (fieldY w)
  | .loadIndex _ => .loadIndex (fieldNnn w)
  | .jumpOffset _ => .jumpOffset (fieldNnn w)
  | .random _ _ => .random (fieldX w) (fieldKk w)
  | .draw _ _ _ => .draw (fieldX w) (fieldY w) (fieldN w)
  | .skipKeyPressed _ => .skipKeyPressed (fieldX w)
  | .skipKeyNotPressed _ => .skipKeyNotPressed (fieldX w)
  | .loadDelay _ => .loadDelay (fieldX w)
  | .waitKey _ => .waitKey (fieldX w)
  | .setDelay _ => .setDelay (fieldX w)
  | .setSound _ => .setSound (fieldX w)
  | .addIndex _ => .addIndex (fieldX w)
  | .loadFontGlyph _ => .loadFontGlyph (fieldX w)
  | .storeBcd _ => .storeBcd (fieldX w)
  | .storeRegs _ => .storeRegs (fieldX w)
  | .loadRegs _ => .loadRegs (fieldX w)

@[simp] theorem opcodeRow_withOperands (w : Word) (i : Instr) : opcodeRow (i.withOperands w) = opcodeRow i := by
  cases i <;> rfl

/-- The encoder puts every operand where its field is read (R76). -/
@[simp] theorem withOperands_encode (i : Instr) : i.withOperands (encode i) = i := by
  cases i <;> simp [Instr.withOperands, encode]

/-- Every word of a row decodes as the row's instruction with the word's own fields (R78 to R82, R90). -/
theorem decodesAs_opcodeRow (i : Instr) :
    Machine.decodesAs (opcodeRow i).mask (opcodeRow i).value (fun w => i.withOperands w) := by
  intro w h
  replace h := covers_iff.1 (beq_iff_eq.2 h)
  cases i
  case clearScreen | ret =>
    obtain ⟨hc, hn⟩ := agree_F00F.1 h
    simp [decode, decodeClass0, encode, hc, hn, Instr.withOperands]
  case loadReg | orReg | andReg | xorReg | addReg | sub | subn | shr | shl =>
    obtain ⟨hc, hn⟩ := agree_F00F.1 h
    simp [decode, decodeClass8, encode, hc, hn, Instr.withOperands]
  case skipKeyPressed | skipKeyNotPressed =>
    obtain ⟨hc, hn⟩ := agree_F00F.1 h
    simp [decode, decodeClassE, encode, hc, hn, Instr.withOperands]
  case loadDelay | waitKey | setDelay | setSound | addIndex | loadFontGlyph | storeBcd | storeRegs | loadRegs =>
    obtain ⟨hc, hk⟩ := agree_F0FF.1 h
    simp [decode, decodeClassF, encode, hc, hk, Instr.withOperands]
  all_goals
    have hc := agree_F000.1 h
    simp [decode, encode, hc, Instr.withOperands]

theorem decode_of_covers (h : (opcodeRow i).covers w = true) : decode w = .instr (i.withOperands w) :=
  decodesAs_opcodeRow i w (beq_iff_eq.1 h)

/-- Settles O5: the encoding lies in the instruction's own row and holds its operands. -/
theorem decodeInvertsEncode : Obligations.DecodeInvertsEncode := by
  intro i _
  have hdecode : decode (encode i) = .instr i := by
    rw [decode_of_covers (encode_covered i), withOperands_encode]
  exact ⟨hdecode, fun rest => by simp [encodeBytes, wordBytes, decodeBytes, hdecode]⟩

/-! ## Every instruction is decoded from its own row (R90) -/

/-- The primary decode, branch by branch: the masks of R90 keep the class and the secondary field it was found by. -/
theorem covers_of_decode (h : decode w = .instr i) : (opcodeRow i).covers w = true := by
  rw [covers_iff]
  unfold decode at h
  split at h
  case h_1 hc | h_9 hc | h_15 hc =>
    simp only [decodeClass0, decodeClass8, decodeClassE] at h
    split at h <;> cases h
    all_goals
      next hn => exact agree_F00F.2 (by simp [encode, BitVec.toNat_eq, hc, hn])
  case h_16 =>
    -- No earlier arm matched, and a nibble is below 16.
    have hlt := (classOf w).isLt
    have hc : (classOf w).toNat = 15 := by grind
    unfold decodeClassF at h
    split at h <;> cases h
    all_goals
      next hk => exact agree_F0FF.2 (by simp [encode, BitVec.toNat_eq, hc, hk])
  all_goals
    next hc =>
      cases h
      exact agree_F000.2 (by simp [encode, BitVec.toNat_eq, hc])

/-- A word that decodes to an instruction gives it its own fields. -/
theorem withOperands_of_decode (h : decode w = .instr i) : i.withOperands w = i :=
  Decoded.instr.inj ((decode_of_covers (covers_of_decode h)).symm.trans h)

/-- The decoder keeps the word of a no-op (R83). -/
theorem decode_cases (w : Word) : (∃ i, decode w = .instr i) ∨ decode w = .noOp w := by
  unfold decode decodeClass0 decodeClass8 decodeClassE decodeClassF
  split
  case h_1 | h_9 | h_15 | h_16 => split <;> simp
  all_goals exact .inl ⟨_, rfl⟩

/-- Settles O6: a covered word has one row, that of the instruction it decodes to. -/
theorem decodeFollowsTheOpcodeMap : Obligations.DecodeFollowsTheOpcodeMap := by
  have hrow : ∀ w i, (opcodeRow i).covers w = true → ∃ j, decode w = .instr j ∧ opcodeRow j = opcodeRow i :=
    fun w i h => ⟨i.withOperands w, decode_of_covers h, opcodeRow_withOperands w i⟩
  refine ⟨fun w i => covers_of_decode, hrow, fun w => ⟨fun hnoOp i => ?_, fun hnone => ?_⟩, fun w i j hi hj => ?_⟩
  · by_contra hcov
    rw [decode_of_covers (Bool.of_not_eq_false hcov)] at hnoOp
    cases hnoOp
  · rcases decode_cases w with ⟨i, hi⟩ | hnoOp
    · exact absurd (covers_of_decode hi) (by simp [hnone i])
    · exact hnoOp
  · obtain ⟨k, hk, hki⟩ := hrow w i hi
    obtain ⟨l, hl, hlj⟩ := hrow w j hj
    rw [← hki, ← hlj, Decoded.instr.inj (hk.symm.trans hl)]

/-! ## The bits the decoder reads (R76, R85) -/

/-- Words that agree on the bits a row reads are covered by it alike. -/
theorem covers_congr (h : w' &&& (opcodeRow i).reads = w &&& (opcodeRow i).reads)
    (hcov : (opcodeRow i).covers w = true) : (opcodeRow i).covers w' = true := by
  rw [covers_iff] at hcov ⊢
  calc w' &&& (opcodeRow i).mask = w' &&& (opcodeRow i).reads &&& (opcodeRow i).mask := by
        rw [BitVec.and_assoc, reads_and_mask]
    _ = encode i &&& (opcodeRow i).mask := by rw [h, BitVec.and_assoc, reads_and_mask, hcov]

/-- Re-encoding what a covered word decodes to restores every bit its row reads: all of them, or all but the nibbles that
R85 ignores. -/
theorem encode_and_reads (h : (opcodeRow i).covers w = true) :
    encode (i.withOperands w) &&& (opcodeRow i).reads = w &&& (opcodeRow i).reads := by
  rw [covers_iff] at h
  cases i
  case clearScreen | ret => exact h.symm
  case skipEqReg | skipNeqReg =>
    have hc := agree_F000.1 h
    exact agree_FFF0.2 (by simp [encode, Instr.withOperands, hc])
  case shr | shl | skipKeyPressed | skipKeyNotPressed =>
    obtain ⟨hc, hn⟩ := agree_F00F.1 h
    exact agree_FF0F.2 (by simp [encode, Instr.withOperands, hc, hn])
  case loadReg | orReg | andReg | xorReg | addReg | sub | subn =>
    obtain ⟨hc, hn⟩ := agree_F00F.1 h
    simp only [encode, classOf_packNibbles, fieldN_packNibbles] at hc hn
    refine congrArg (· &&& 0xFFFF#16) ?_
    simp only [encode, Instr.withOperands, ← hc, ← hn, packNibbles_fields]
  case loadDelay | waitKey | setDelay | setSound | addIndex | loadFontGlyph | storeBcd | storeRegs | loadRegs =>
    obtain ⟨hc, hk⟩ := agree_F0FF.1 h
    simp only [encode, classOf_packXkk, fieldKk_packXkk] at hc hk
    refine congrArg (· &&& 0xFFFF#16) ?_
    simp only [encode, Instr.withOperands, ← hc, ← hk, packXkk_fields]
  all_goals
    have hc := agree_F000.1 h
    simp only [encode, classOf_packNibbles, classOf_packXkk, classOf_packNnn] at hc
    refine congrArg (· &&& 0xFFFF#16) ?_
    simp only [encode, Instr.withOperands, ← hc, packNibbles_fields, packXkk_fields, packNnn_fields]

/-- The operands are fields the row reads. -/
theorem withOperands_congr (h : w' &&& (opcodeRow i).reads = w &&& (opcodeRow i).reads) :
    i.withOperands w' = i.withOperands w := by
  cases i
  case clearScreen | ret => rfl
  case skipEqReg | skipNeqReg =>
    obtain ⟨-, hx, hy⟩ := agree_FFF0.1 h
    simp [Instr.withOperands, hx, hy]
  case shr | shl | skipKeyPressed | skipKeyNotPressed =>
    obtain ⟨-, hx, -⟩ := agree_FF0F.1 h
    simp [Instr.withOperands, hx]
  all_goals
    have hw : w' = w := (and_FFFF w').symm.trans (h.trans (and_FFFF w))
    rw [hw]

/-- Settles O7: the bits a row reads hold its opcode bits and its operands, and the encoder restores both. -/
theorem ignoredBitsDoNotMatter : Obligations.IgnoredBitsDoNotMatter := by
  intro w i h
  have hcov := covers_of_decode h
  have hi := withOperands_of_decode h
  refine ⟨?_, fun w' hagree => ?_⟩
  · simpa only [hi] using encode_and_reads hcov
  · rw [decode_of_covers (covers_congr hagree hcov), withOperands_congr hagree, hi]

/-! ## Fields and sample words (R75, R78 to R82) -/

/-- Settles O3: a field is the word shifted right and cut to its width; of the class nothing is left to cut. -/
theorem fieldsAreTheBitsOfTheWord : Obligations.FieldsAreTheBitsOfTheWord := by
  intro w
  have hclass : w.toNat / 4096 < 16 := by omega
  simp [classOf, fieldX, fieldY, fieldN, fieldKk, fieldNnn, Nat.shiftRight_eq_div_pow, Nat.mod_eq_of_lt hclass]

/-- Settles O4, word by word. -/
theorem sampleWordsDecodeAsListed : Obligations.SampleWordsDecodeAsListed := by
  unfold Obligations.SampleWordsDecodeAsListed
  decide

/-! ## Which words are no-ops (R83) -/

theorem decode_eq_noOp_iff_of_class0 (hc : classOf w = 0x0) :
    decode w = .noOp w ↔ fieldN w ≠ 0x0 ∧ fieldN w ≠ 0xE := by
  rw [show decode w = decodeClass0 w by simp [decode, hc], decodeClass0]
  split <;> simp_all [BitVec.toNat_eq]

theorem decode_eq_noOp_iff_of_class8 (hc : classOf w = 0x8) :
    decode w = .noOp w ↔ 0x8 ≤ (fieldN w).toNat ∧ fieldN w ≠ 0xE := by
  rw [show decode w = decodeClass8 w by simp [decode, hc], decodeClass8]
  split
  case h_10 =>
    have hge : 0x8 ≤ (fieldN w).toNat := by grind
    simp_all [BitVec.toNat_eq]
  all_goals simp_all [BitVec.toNat_eq]

theorem decode_eq_noOp_iff_of_classE (hc : classOf w = 0xE) :
    decode w = .noOp w ↔ fieldN w ≠ 0x1 ∧ fieldN w ≠ 0xE := by
  rw [show decode w = decodeClassE w by simp [decode, hc], decodeClassE]
  split <;> simp_all [BitVec.toNat_eq]

theorem decode_eq_noOp_iff_of_classF (hc : classOf w = 0xF) :
    decode w = .noOp w ↔ fieldKk w ∉ ([0x07, 0x0A, 0x15, 0x18, 0x1E, 0x29, 0x33, 0x55, 0x65] : List Byte) := by
  rw [show decode w = decodeClassF w by simp [decode, hc], decodeClassF]
  split <;> simp_all [BitVec.toNat_eq]

/-- Classes 0, 8, E and F alone have no-op words. -/
theorem decode_instr_of_other_class (h : classOf w ∉ ([0x0, 0x8, 0xE, 0xF] : List Nibble)) :
    ∃ i, decode w = .instr i := by
  simp only [List.mem_cons, List.not_mem_nil, or_false, not_or, BitVec.toNat_eq] at h
  obtain ⟨h0, h8, hE, hF⟩ := h
  unfold decode
  split
  case h_1 hc => exact absurd hc h0
  case h_9 hc => exact absurd hc h8
  case h_15 hc => exact absurd hc hE
  case h_16 =>
    have hlt := (classOf w).isLt
    exact absurd (by grind) hF
  all_goals exact ⟨_, rfl⟩

end Sys2Proof

namespace Sys2Proof.Machine

variable {s : State} {i : Instr}

/-! ## The cycle on a decoded word (R70 to R73) -/

theorem State.fetchFits_of_le (h : s.pc.toNat ≤ 0xFFE) : s.fetchFits := by
  rw [State.fetchFits, Config.memSize_eq]
  omega

theorem step_of_instr (hs : s.status = .running) (hpc : s.pc.toNat ≤ 0xFFE) (hd : decode s.fetchWord = .instr i) :
    step s = finishCycle s (exec i s.beginCycle) := by
  rw [step_of_fits hs (State.fetchFits_of_le hpc), hd]
  rfl

/-- Settles O8: the begun state is written out, and the cycle ends by the status the instruction left. -/
theorem stepRunsTheDecodedInstruction : Obligations.StepRunsTheDecodedInstruction := by
  intro s i hs hpc hd begun
  have hstep : step s = finishCycle s (exec i begun) := step_of_instr hs hpc hd
  refine ⟨hstep, fun t ht hrun => ?_, fun t f ht hfault => ?_⟩
  · rw [hstep, ht, finishCycle_of_running s hrun]
    rfl
  · rw [hstep, ht, finishCycle_of_faulted s hfault]
    rfl

/-- The cycle of a no-op latches `op`, advances `pc` and runs the timer step (R83). -/
theorem step_of_noOp (hs : s.status = .running) (hpc : s.pc.toNat ≤ 0xFFE) (hd : decode s.fetchWord = .noOp s.fetchWord) :
    step s = .next s.beginCycle.timerStep := by
  rw [step_of_fits hs (State.fetchFits_of_le hpc), hd]
  exact finishCycle_of_running s (t := s.beginCycle) hs

/-- Settles O9, family by family, and by the cycle of a no-op. -/
theorem noOpOnlyAdvancesAndTicks : Obligations.NoOpOnlyAdvancesAndTicks :=
  ⟨fun _ => ⟨decode_eq_noOp_iff_of_class0, decode_eq_noOp_iff_of_class8, decode_eq_noOp_iff_of_classE,
    decode_eq_noOp_iff_of_classF, decode_instr_of_other_class⟩, fun _ => step_of_noOp⟩

/-- Settles O35: with no key pressed wait-key undoes the advance, and the timer step follows. -/
theorem waitingCycleStaysInPlace : Obligations.WaitingCycleStaysInPlace := by
  intro s x hs hpc hd hkeys
  have hexec : exec (.waitKey x) s.beginCycle = .next (s.beginCycle.jumpTo s.pc) := by
    have hnone : s.beginCycle.scanKeys = none := State.scanKeys_eq_none.2 hkeys
    simp [exec, execWaitKey, hnone]
  refine ⟨(s.beginCycle.jumpTo s.pc).timerStep, ?_, rfl, toNat_tick _, toNat_tick _⟩
  rw [step_of_instr hs hpc hd, hexec]
  exact finishCycle_of_running s (t := s.beginCycle.jumpTo s.pc) hs

/-! ## A next state always (R86, R201, R202) -/

/-- A range-checked operation answers a next state if what it goes on with does: the fault is one too (R58). -/
theorem State.withDataRange_answers (s : State) (count : Nat) {go : Outcome} (h : ∃ t, go = .next t) :
    ∃ t, s.withDataRange count go = .next t := by
  unfold State.withDataRange
  split
  · exact ⟨_, rfl⟩
  · exact h

theorem State.plotAtEdge_answers (s : State) (edge : DrawEdge) (pixels : List Pixel) :
    ∃ t, s.plotAtEdge edge pixels = .next t := by
  cases edge
  · simp only [State.plotAtEdge]
    split <;> exact ⟨_, rfl⟩
  · exact ⟨_, rfl⟩

theorem State.withKey_answers (s : State) (x : Nibble) {go : Bool → Outcome} (h : ∀ down, ∃ t, go down = .next t) :
    ∃ t, s.withKey x go = .next t := by
  unfold State.withKey
  split
  · exact h _
  · exact ⟨_, rfl⟩

theorem exec_answers (i : Instr) (s : State) : ∃ t, exec i s = .next t := by
  cases i
  case ret | call | waitKey =>
    simp only [exec, execRet, execCall, execWaitKey]
    split <;> exact ⟨_, rfl⟩
  case draw => exact s.withDataRange_answers _ (s.plotAtEdge_answers _ _)
  case storeBcd | storeRegs | loadRegs => exact s.withDataRange_answers _ ⟨_, rfl⟩
  case skipKeyPressed | skipKeyNotPressed =>
    simp only [exec, execSkipKeyPressed, execSkipKeyNotPressed]
    exact s.withKey_answers _ fun down => ⟨_, rfl⟩
  all_goals exact ⟨_, rfl⟩

theorem executeDecoded_answers (d : Decoded) (s : State) : ∃ t, executeDecoded d s = .next t := by
  cases d with
  | instr i => exact exec_answers i s
  | noOp w => exact ⟨s, rfl⟩

theorem finishCycle_answers (s t : State) : ∃ u, finishCycle s (.next t) = .next u := by
  cases ht : t.status with
  | running => exact ⟨_, finishCycle_of_running s ht⟩
  | faulted f => exact ⟨_, finishCycle_of_faulted s ht⟩

/-- The three ways of a cycle: faulted before, a fetch fault, or an execute step brought to its end (R70). -/
theorem step_answers (s : State) : ∃ t, step s = .next t := by
  by_cases hs : s.status = .running
  · by_cases hf : s.fetchFits
    · obtain ⟨t, ht⟩ := executeDecoded_answers (decode s.fetchWord) s.beginCycle
      rw [step_of_fits hs hf, ht]
      exact finishCycle_answers s t
    · exact ⟨_, step_of_not_fits hs hf⟩
  · exact ⟨s, step_of_faulted hs⟩

/-- Settles O10: a fault is a next state too (log entry 1). -/
theorem stepAlwaysAnswersANextState : Obligations.StepAlwaysAnswersANextState := ⟨exec_answers, step_answers⟩

end Sys2Proof.Machine

/-! # Control transfer (40_control.md) -/

namespace Sys2Proof.Machine

variable {s t : State}

/-! ## Jumps (R101, R107) -/

/-- Settles O11: each encoding is a row of R90, and each jump moves `pc` alone. -/
theorem jumpsGoToTheirTarget : Obligations.JumpsGoToTheirTarget :=
  ⟨decodesAs_opcodeRow (.jump 0), decodesAs_opcodeRow (.jumpOffset 0),
    fun nnn _ => ⟨_, rfl, toNat_zext16 nnn (by decide), .jumpTo rfl _⟩,
    fun nnn s => ⟨_, rfl, toNat_zext16_add_zext16 (s.reg 0) nnn, .jumpTo rfl _⟩⟩

/-! ## What call and return do, with an entry to use and without (R100, R102) -/

theorem exec_call_of_room (nnn : Addr12) (h : s.sp.val < 16) :
    exec (.call nnn) s = .next (State.jumpTo
      { s with stack := s.stack.set s.sp.val s.pc h, sp := ⟨s.sp.val + 1, by omega⟩ } (zext16 nnn)) := by
  simp [exec, execCall, s.push_eq _ h]

theorem exec_call_of_full (nnn : Addr12) (h : s.sp.val = 16) :
    exec (.call nnn) s = raise (.stackOverflow s.fetchAddr s.op) s := by
  simp [exec, execCall, s.push_full _ h]

theorem exec_ret_of_entry (h : 0 < s.sp.val) :
    exec .ret s = .next
      (State.jumpTo { s with sp := ⟨s.sp.val - 1, by omega⟩ } (s.stack[s.sp.val - 1]'(by omega))) := by
  simp [exec, execRet, s.pop_eq h]

theorem exec_ret_of_empty (h : s.sp.val = 0) : exec .ret s = raise (.stackUnderflow s.fetchAddr s.op) s := by
  simp [exec, execRet, s.pop_empty h]

/-- An instruction that moved `SP` raised no fault, so it stayed in its footprint (R202). -/
theorem exec_onlyChanges_of_sp_ne {i : Instr} (h : exec i s = .next t) (hsp : t.sp.val ≠ s.sp.val) :
    OnlyChanges (footprint s i) s t := by
  rcases exec_cases h with hc | ⟨r, rfl⟩
  · exact hc
  · exact absurd rfl hsp

/-- Settles O12, with room and with a full stack; the frame is the footprint of a call. -/
theorem callPushesTheReturnAddress : Obligations.CallPushesTheReturnAddress := by
  refine ⟨decodesAs_opcodeRow (.call 0), fun nnn s h => ?_, fun nnn _ => exec_call_of_full nnn⟩
  have hexec := exec_call_of_room nnn h
  exact ⟨_, hexec, Vector.getElem_set_self h, rfl, toNat_zext16 nnn (by decide),
    exec_onlyChanges_of_sp_ne hexec (Nat.succ_ne_self _)⟩

/-- Settles O13, with an entry and with an empty stack; the frame is the footprint of a return. -/
theorem returnPopsTheReturnAddress : Obligations.ReturnPopsTheReturnAddress := by
  refine ⟨decodesAs_opcodeRow .ret, fun s h => ?_, fun _ => exec_ret_of_empty⟩
  have hexec := exec_ret_of_entry h
  exact ⟨_, hexec, rfl, Nat.sub_add_cancel h, exec_onlyChanges_of_sp_ne hexec (Nat.sub_one_lt_of_lt h).ne⟩

/-- Settles O15: the return finds in the entry below `SP` what the call pushed there. -/
theorem returnUndoesCall : Obligations.ReturnUndoesCall := by
  intro nnn s t u hroom hcall hstack hsp
  rw [exec_call_of_room nnn hroom] at hcall
  cases hcall
  have hentry : 0 < u.sp.val := by simp [hsp]
  exact ⟨_, exec_ret_of_entry hentry, by simp [hstack, hsp], by simp [hsp], hstack⟩

/-! ## Skips (R103 to R106) -/

theorem State.pc_skipIf_beq (s : State) (a b : Byte) :
    (s.skipIf (a == b)).pc = if a.toNat = b.toNat then s.pc + 2 else s.pc := by
  simp [BitVec.toNat_inj]

theorem State.pc_skipIf_bne (s : State) (a b : Byte) :
    (s.skipIf (a != b)).pc = if a.toNat = b.toNat then s.pc else s.pc + 2 := by
  simp [BitVec.toNat_inj]

/-- Settles O14: each encoding is a row of R90, and each skip compares two bytes and moves `pc` alone. -/
theorem skipsAddASecondTwo : Obligations.SkipsAddASecondTwo :=
  ⟨decodesAs_opcodeRow (.skipEqConst 0 0), decodesAs_opcodeRow (.skipNeqConst 0 0),
    decodesAs_opcodeRow (.skipEqReg 0 0), decodesAs_opcodeRow (.skipNeqReg 0 0),
    fun _ _ s => ⟨_, rfl, s.pc_skipIf_beq _ _, .skipIf rfl _⟩,
    fun _ _ s => ⟨_, rfl, s.pc_skipIf_bne _ _, .skipIf rfl _⟩,
    fun _ _ s => ⟨_, rfl, s.pc_skipIf_beq _ _, .skipIf rfl _⟩,
    fun _ _ s => ⟨_, rfl, s.pc_skipIf_bne _ _, .skipIf rfl _⟩⟩

end Sys2Proof.Machine

/-! # The ALU and the registers (41_alu.md) -/

namespace Sys2Proof.Machine

variable {s : State} {f : Footprint}

/-! ## Flags as numbers (R129 to R133) -/

theorem toNat_flagByte (p : Prop) [Decidable p] : (flagByte (decide p)).toNat = if p then 1 else 0 := by
  by_cases hp : p <;> simp [flagByte, hp]

/-- Nine bits hold the sum of two bytes (R129). -/
theorem toNat_sum9 (a b : Byte) : (sum9 a b).toNat = a.toNat + b.toNat := by
  have ha := a.isLt
  have hb := b.isLt
  simp only [sum9, BitVec.toNat_add, BitVec.toNat_setWidth]
  omega

theorem toNat_carryFlag (a b : Byte) : (carryFlag a b).toNat = if 255 < a.toNat + b.toNat then 1 else 0 := by
  rw [carryFlag, toNat_flagByte, toNat_sum9]

theorem toNat_greaterFlag (a b : Byte) : (greaterFlag a b).toNat = if b.toNat < a.toNat then 1 else 0 :=
  toNat_flagByte _

theorem toNat_lessFlag (a b : Byte) : (lessFlag a b).toNat = if a.toNat < b.toNat then 1 else 0 :=
  toNat_flagByte _

theorem toNat_shrFlag (a : Byte) : (shrFlag a).toNat = a.toNat % 2 :=
  (BitVec.toNat_and a 1).trans (Nat.and_one_is_mod _)

/-- Bit 7 is the top bit: nothing is above it to mask off (R133). -/
theorem toNat_shlFlag (a : Byte) : (shlFlag a).toNat = a.toNat / 128 := by
  have ha := a.isLt
  have hmask : (shlFlag a).toNat = (a >>> 7).toNat % 2 := toNat_shrFlag (a >>> 7)
  rw [hmask, BitVec.toNat_ushiftRight, Nat.shiftRight_eq_div_pow]
  omega

/-! ## Results as numbers (R120) -/

theorem toNat_byte_sub (a b : Byte) : (a - b).toNat = (a.toNat + 256 - b.toNat) % 256 := by
  have hb := b.isLt
  rw [BitVec.toNat_sub]
  omega

theorem toNat_byte_half (a : Byte) : (a >>> 1).toNat = a.toNat / 2 := by
  rw [BitVec.toNat_ushiftRight, Nat.shiftRight_eq_div_pow, pow_one]

theorem toNat_byte_double (a : Byte) : (a <<< 1).toNat = 2 * a.toNat % 256 := by
  rw [BitVec.toNat_shiftLeft, Nat.shiftLeft_eq, pow_one, Nat.mul_comm]

/-- A right shift of a one-bit flag leaves nothing (R132). -/
theorem shrFlag_half (a : Byte) : shrFlag a >>> 1 = 0 := by
  refine BitVec.eq_of_toNat_eq ?_
  rw [toNat_byte_half, toNat_shrFlag]
  exact Nat.div_eq_of_lt (Nat.mod_lt _ (by decide))

theorem toNat_shlFlag_double (a : Byte) : (shlFlag a <<< 1).toNat = 2 * (a.toNat / 128) := by
  have ha := a.isLt
  rw [toNat_byte_double, toNat_shlFlag]
  omega

/-! ## What a flag instruction leaves in `Vx` and in `VF` (R128) -/

theorem State.reg_writeFlagResult_result (s : State) (flag : Byte) (x : Nibble) (result : State → Byte) :
    (s.writeFlagResult .sequential flag x result).reg x = result (s.setReg 0xF flag) := by
  rw [State.reg_writeFlagResult, if_pos rfl]

/-- The flag that was written, as the number it stands for. -/
theorem State.toNat_reg_writeFlagResult_flag (s : State) {flag : Byte} {n : Nat} (hflag : flag.toNat = n) {x : Nibble}
    (result : State → Byte) (hx : x ≠ 0xF) : ((s.writeFlagResult .sequential flag x result).reg 0xF).toNat = n := by
  rw [State.reg_writeFlagResult, if_neg hx.symm, if_pos rfl, hflag]

/-- A difference `Vp - Vq` reads the new flag, of value `n`, where an operand is `VF` (R128, R130, R131). -/
theorem State.toNat_reg_writeFlagResult_sub (s : State) {flag : Byte} {n : Nat} (hflag : flag.toNat = n)
    (x p q : Nibble) :
    let diff := ((s.writeFlagResult .sequential flag x fun u => u.reg p - u.reg q).reg x).toNat
    (p ≠ 0xF → q ≠ 0xF → diff = ((s.reg p).toNat + 256 - (s.reg q).toNat) % 256) ∧
    (p ≠ 0xF → q = 0xF → diff = ((s.reg p).toNat + 256 - n) % 256) ∧
    (p = 0xF → q ≠ 0xF → diff = (n + 256 - (s.reg q).toNat) % 256) ∧
    (p = 0xF → q = 0xF → diff = 0) := by
  intro diff
  have hdiff : diff = ((if p = 0xF then flag else s.reg p).toNat + 256 -
      (if q = 0xF then flag else s.reg q).toNat) % 256 := by
    rw [← s.reg_setReg, ← s.reg_setReg, ← toNat_byte_sub]
    exact congrArg BitVec.toNat (s.reg_writeFlagResult_result flag x _)
  refine ⟨fun hp hq => ?_, fun hp hq => ?_, fun hp hq => ?_, fun hp hq => ?_⟩
  · rw [hdiff, if_neg hp, if_neg hq]
  · rw [hdiff, if_neg hp, if_pos hq, hflag]
  · rw [hdiff, if_pos hp, if_neg hq, hflag]
  · rw [hdiff, if_pos hp, if_pos hq, Nat.add_sub_cancel_left]

/-- shr writes half of `Vx`, or of the flag where `x` names `VF` (R128, R132). -/
theorem State.reg_shrReg (s : State) (x : Nibble) :
    (s.shrReg .sequential x).reg x = (if x = 0xF then shrFlag (s.reg x) else s.reg x) >>> 1 := by
  rw [State.shrReg, State.reg_writeFlagResult_result, State.reg_setReg]

/-- shl writes the double of `Vx`, or of the flag where `x` names `VF` (R128, R133). -/
theorem State.reg_shlReg (s : State) (x : Nibble) :
    (s.shlReg .sequential x).reg x = (if x = 0xF then shlFlag (s.reg x) else s.reg x) <<< 1 := by
  rw [State.shlReg, State.reg_writeFlagResult_result, State.reg_setReg]

/-! ## The two orders of a flag and its result (D10) -/

/-- Writes to two registers commute (R23). -/
theorem State.setReg_comm (s : State) {x y : Nibble} (a b : Byte) (h : x ≠ y) :
    (s.setReg x a).setReg y b = (s.setReg y b).setReg x a := by
  have hnat : x.toNat ≠ y.toNat := fun e => h (BitVec.eq_of_toNat_eq e)
  simp only [State.setReg, Vector.set_comm a b hnat]

/-- The order of the two writes shows only where `x` is `VF` or the result reads `VF` (D10). -/
theorem State.writeFlagResult_order {flag : Byte} {x : Nibble} {result : State → Byte} (hx : x ≠ 0xF)
    (hresult : result (s.setReg 0xF flag) = result s) :
    s.writeFlagResult .sequential flag x result = s.writeFlagResult .latched flag x result := by
  calc (s.setReg 0xF flag).setReg x (result (s.setReg 0xF flag))
      = (s.setReg 0xF flag).setReg x (result s) := by rw [hresult]
    _ = (s.setReg x (result s)).setReg 0xF flag := s.setReg_comm flag (result s) hx.symm

/-! ## The random source (R134, D11) -/

/-- Drawing a byte advances the counter of draws and changes nothing else (log entry 3). -/
theorem OnlyChanges.drawByte (h : f.draws = true) : OnlyChanges f s s.drawByte.2 :=
  { OnlyChanges.refl f s with draws := fun e => by simp [h] at e }

/-! ## The statements -/

/-- Settles O16: each encoding is a row of R90, and each form is one register write. -/
theorem immediateFormsWriteOneRegister : Obligations.ImmediateFormsWriteOneRegister := by
  refine ⟨decodesAs_opcodeRow (.loadConst 0 0), decodesAs_opcodeRow (.addConst 0 0),
    fun x kk s => ⟨_, rfl, s.reg_setReg_self x kk, .setReg (by simp) _⟩,
    fun x kk s => ⟨_, rfl, ?_, .setReg (by simp) _⟩⟩
  rw [State.reg_setReg_self]
  exact BitVec.toNat_add _ _

/-- Settles O17: as O16, with the register that was written read bit by bit. -/
theorem copyAndLogicWriteOneRegister : Obligations.CopyAndLogicWriteOneRegister :=
  ⟨decodesAs_opcodeRow (.loadReg 0 0), decodesAs_opcodeRow (.orReg 0 0), decodesAs_opcodeRow (.andReg 0 0),
    decodesAs_opcodeRow (.xorReg 0 0),
    fun x _ s => ⟨_, rfl, s.reg_setReg_self x _, .setReg (by simp) _⟩,
    fun _ _ _ => ⟨_, rfl, fun _ => by rw [State.reg_setReg_self, BitVec.getLsbD_or], .setReg (by simp) _⟩,
    fun _ _ _ => ⟨_, rfl, fun _ => by rw [State.reg_setReg_self, BitVec.getLsbD_and], .setReg (by simp) _⟩,
    fun _ _ _ => ⟨_, rfl, fun _ => by rw [State.reg_setReg_self, BitVec.getLsbD_xor], .setReg (by simp) _⟩⟩

/-- Settles O18: the sum is cut from nine bits to eight, and reads no flag. -/
theorem addRegGivesSumAndCarry : Obligations.AddRegGivesSumAndCarry := by
  refine ⟨decodesAs_opcodeRow (.addReg 0 0), fun x y s => ⟨s.addRegs .sequential x y, rfl, ?_,
    s.toNat_reg_writeFlagResult_flag (toNat_carryFlag _ _) _, .writeFlagResult (by simp) (by simp) _ _ _⟩⟩
  rw [State.addRegs, State.reg_writeFlagResult_result, BitVec.toNat_setWidth, toNat_sum9]

/-- Settles O19: the difference is `Vx - Vy`, formed after the flag write. -/
theorem subGivesDifferenceAndGreater : Obligations.SubGivesDifferenceAndGreater := by
  refine ⟨decodesAs_opcodeRow (.sub 0 0), fun x y s => ⟨_, rfl, .writeFlagResult (by simp) (by simp) _ _ _, ?_⟩⟩
  have hflag := toNat_greaterFlag (s.reg x) (s.reg y)
  exact ⟨s.toNat_reg_writeFlagResult_flag hflag _, s.toNat_reg_writeFlagResult_sub hflag x x y⟩

/-- Settles O20: the difference is `Vy - Vx`, so the two cases with one operand `VF` change places. -/
theorem subnGivesReversedDifferenceAndLess : Obligations.SubnGivesReversedDifferenceAndLess := by
  refine ⟨decodesAs_opcodeRow (.subn 0 0), fun x y s => ⟨_, rfl, .writeFlagResult (by simp) (by simp) _ _ _, ?_⟩⟩
  have hflag := toNat_lessFlag (s.reg x) (s.reg y)
  obtain ⟨hneither, hsubtrahend, hminuend, hboth⟩ := s.toNat_reg_writeFlagResult_sub hflag x y x
  exact ⟨s.toNat_reg_writeFlagResult_flag hflag _, fun hx hy => hneither hy hx, fun hx hy => hminuend hy hx,
    fun hx hy => hsubtrahend hy hx, fun hx hy => hboth hy hx⟩

/-- Settles O21, for `x` other than 15 and for 15, where the shift reads the flag. -/
theorem shiftsGiveHalfAndDouble : Obligations.ShiftsGiveHalfAndDouble := by
  refine ⟨decodesAs_opcodeRow (.shr 0), decodesAs_opcodeRow (.shl 0),
    fun x s => ⟨_, rfl, .writeFlagResult (by simp) (by simp) _ _ _,
      fun hx => ⟨?_, s.toNat_reg_writeFlagResult_flag (toNat_shrFlag _) _ hx⟩, ?_⟩,
    fun x s => ⟨_, rfl, .writeFlagResult (by simp) (by simp) _ _ _,
      fun hx => ⟨?_, s.toNat_reg_writeFlagResult_flag (toNat_shlFlag _) _ hx⟩, ?_⟩⟩
  · rw [Config.flagOrder_eq, State.reg_shrReg, if_neg hx, toNat_byte_half]
  · rintro rfl
    rw [Config.flagOrder_eq, State.reg_shrReg, if_pos rfl, shrFlag_half]
  · rw [Config.flagOrder_eq, State.reg_shlReg, if_neg hx, toNat_byte_double]
  · rintro rfl
    rw [Config.flagOrder_eq, State.reg_shlReg, if_pos rfl, toNat_shlFlag_double]

/-- Settles O22: a draw, then one register write. -/
theorem randomMasksOneDrawnByte : Obligations.RandomMasksOneDrawnByte := by
  refine ⟨decodesAs_opcodeRow (.random 0 0), fun x kk s => ⟨_, rfl, fun k => ?_, rfl,
    (OnlyChanges.drawByte rfl).trans (.setReg (by simp) _)⟩⟩
  rw [State.maskRandom, State.reg_setReg_self, BitVec.getLsbD_and]
  rfl

/-- Settles O23: every operand is some register other than `VF`, which reads the same after the flag write. -/
theorem flagOrdersAgreeAwayFromVF : Obligations.FlagOrdersAgreeAwayFromVF := by
  intro x y s hx hy
  have hkeep : ∀ flag, (s.setReg 0xF flag).reg x = s.reg x ∧ (s.setReg 0xF flag).reg y = s.reg y :=
    fun flag => ⟨s.reg_setReg_other flag hx, s.reg_setReg_other flag hy⟩
  refine ⟨State.writeFlagResult_order hx rfl, ?_, ?_, ?_, ?_⟩
  all_goals exact State.writeFlagResult_order hx (by simp only [hkeep])

end Sys2Proof.Machine

/-! # The index register and memory (42_index_memory.md) -/

namespace Sys2Proof.Machine

variable {s u : State}

/-! ## The writers of `I` (R150 to R152) -/

/-- The address of a glyph does not wrap: `Vx` is short (R152). -/
theorem toNat_glyphAddress (b : Byte) :
    (BitVec.ofNat 16 Config.fontBase + 5 * zext16 b).toNat = 0x050 + 5 * b.toNat := by
  have hb := b.isLt
  have hzext := toNat_zext16 b (by decide)
  rw [Config.fontBase_eq]
  bv_omega

/-- Settles O24: each encoding is a row of R90, and each instruction moves `I` alone. -/
theorem indexWritersSetI : Obligations.IndexWritersSetI := by
  refine ⟨decodesAs_opcodeRow (.loadIndex 0), decodesAs_opcodeRow (.addIndex 0),
    decodesAs_opcodeRow (.loadFontGlyph 0),
    fun nnn s => ⟨_, rfl, toNat_zext16 nnn (by decide), .setIndex rfl _⟩,
    fun x s => ⟨_, rfl, ?_, .setIndex rfl _⟩,
    fun x s => ⟨_, rfl, toNat_glyphAddress (s.reg x), .setIndex rfl _⟩⟩
  rw [State.setIndex_index, BitVec.toNat_add, toNat_zext16 (s.reg x) (by decide)]

/-! ## The glyphs of the font table (R56) -/

/-- Where the font region reads as reset left it, a block that `I` points at in it is that stretch of the font table. -/
theorem State.readBlock_setIndex_of_font
    (hfont : ∀ (k : Nat) (h : k < Config.font.length), s.byteAt (0x050 + k) = Config.font[k])
    {w : Word} {j count : Nat} (hw : w.toNat = 0x050 + j) (hfit : j + count ≤ Config.font.length) :
    (s.setIndex w).readBlock count = (Config.font.drop j).take count := by
  refine List.ext_getElem ?_ fun k hk _ => ?_
  · rw [State.length_readBlock, List.length_take, List.length_drop]
    omega
  · rw [State.length_readBlock] at hk
    calc ((s.setIndex w).readBlock count)[k] = s.byteAt (0x050 + (j + k)) := by
          simp [State.readBlock, State.byteAt, hw, Nat.add_assoc]
      _ = Config.font[j + k] := hfont (j + k) (by omega)
      _ = ((Config.font.drop j).take count)[k] := by rw [List.getElem_take, List.getElem_drop]

/-- Settles O2: `I` points `5 d` bytes into the font table, and five bytes from there are still in it. -/
theorem fontGlyphIsFoundForEveryDigit : Obligations.FontGlyphIsFoundForEveryDigit := by
  intro x s d hfont hd hlt
  have hindex : (BitVec.ofNat 16 Config.fontBase + 5 * zext16 (s.reg x)).toNat = 0x050 + 5 * d := by
    rw [toNat_glyphAddress, hd]
  have hfit : 5 * d + 5 ≤ Config.font.length := by
    rw [length_font]
    omega
  have hglyph := State.readBlock_setIndex_of_font hfont hindex hfit
  refine ⟨_, rfl, hglyph, ?_, ?_, ?_⟩
  all_goals
    rintro rfl
    exact hglyph

/-! ## Blocks at `I`, inside memory and past its end (R54, R58) -/

/-- Byte `k` of a block written inside memory is read back at `I + k` (R55). -/
theorem State.byteAt_writeBlock_of_lt {bytes : List Byte} (h : s.index.toNat + bytes.length ≤ Config.memSize)
    {k : Nat} (hk : k < bytes.length) : (s.writeBlock bytes).byteAt (s.index.toNat + k) = bytes[k] := by
  simp [s.byteAt_writeBlock bytes h, hk]

/-- A range check that finds an address above 0xFFF changes `status` alone, to the fault with `max(I, 0x1000)`
(R201, R202). -/
theorem State.withDataRange_faults {count : Nat} (go : Outcome) (hcount : 0 < count)
    (h : 0x1000 < s.index.toNat + count) :
    ∃ a : Word, a.toNat = max s.index.toNat 0x1000 ∧
      s.withDataRange count go = .next { s with status := .faulted (.memoryOutOfRange (s.pc - 2) s.op a) } := by
  refine ⟨_, toNat_firstOutOfRange s.index, ?_⟩
  rw [State.withDataRange_eq, if_pos ⟨hcount, h⟩]
  rfl

/-! ## store-bcd (R153) -/

/-- store-bcd inside memory writes the block of the three digits (R58, R153). -/
theorem exec_storeBcd_of_fits {x : Nibble} (h : s.index.toNat + 2 ≤ 0xFFF) :
    exec (.storeBcd x) s = .next (s.writeBlock (bcdDigits (s.reg x))) :=
  s.withDataRange_ok _ (by omega)

/-- Settles O25: the three bytes of the block are the digits, as quotients and remainders of bytes. -/
theorem storeBcdWritesThreeDigits : Obligations.StoreBcdWritesThreeDigits := by
  refine ⟨decodesAs_opcodeRow (.storeBcd 0), fun x s h => ?_,
    fun x s h => State.withDataRange_faults _ (by decide) (by omega)⟩
  have hmem : s.index.toNat + (bcdDigits (s.reg x)).length ≤ Config.memSize := by
    rw [length_bcdDigits, Config.memSize_eq]
    omega
  have hdigit (k : Nat) (hk : k < 3) :
      (s.writeBlock (bcdDigits (s.reg x))).byteAt (s.index.toNat + k) = (bcdDigits (s.reg x))[k] :=
    State.byteAt_writeBlock_of_lt hmem hk
  exact ⟨_, exec_storeBcd_of_fits h, congrArg BitVec.toNat (hdigit 0 (by decide)),
    congrArg BitVec.toNat (hdigit 1 (by decide)), congrArg BitVec.toNat (hdigit 2 (by decide)), .writeBlock _ rfl hmem⟩

/-! ## store-regs and load-regs (R154 to R156) -/

/-- Settles O26: the block inside memory holds the registers in order. -/
theorem storeRegsWritesTheBlock : Obligations.StoreRegsWritesTheBlock := by
  refine ⟨decodesAs_opcodeRow (.storeRegs 0), fun x s h => ⟨_, exec_storeRegs_of_fits h,
    fun r => State.byteAt_writeBlock_regsUpTo h, .writeBlock _ ?_ ?_⟩,
    fun x s h => State.withDataRange_faults _ (Nat.succ_pos _) (by omega)⟩
  · rw [State.length_regsUpTo]
  · rw [State.length_regsUpTo, Config.memSize_eq]
    omega

/-- load-regs inside memory reads the block into `V[0]` to `V[x]` (R58, R155). -/
theorem exec_loadRegs_of_fits {x : Nibble} (h : s.index.toNat + x.toNat ≤ 0xFFF) :
    exec (.loadRegs x) s = .next { s with v := s.loadedRegs x } :=
  s.withDataRange_ok _ (by omega)

theorem State.reg_loadedRegs_of_le {x y : Nibble} (h : y.toNat ≤ x.toNat) :
    ({ s with v := s.loadedRegs x } : State).reg y = s.byteAt (s.index.toNat + y.toNat) := by
  rw [State.reg_loadedRegs, if_pos h]

theorem State.reg_loadedRegs_of_lt {x y : Nibble} (h : x.toNat < y.toNat) :
    ({ s with v := s.loadedRegs x } : State).reg y = s.reg y := by
  rw [State.reg_loadedRegs, if_neg (Nat.not_le.2 h)]

theorem mem_regsThrough_of_le {x y : Nibble} (h : y.toNat ≤ x.toNat) : y ∈ regsThrough x :=
  List.mem_map.2 ⟨y.toNat, List.mem_range.2 (Nat.lt_succ_of_le h), by simp⟩

/-- Settles O27: a register that load-regs does not name is above `x` and keeps its value. -/
theorem loadRegsReadsTheBlock : Obligations.LoadRegsReadsTheBlock := by
  refine ⟨decodesAs_opcodeRow (.loadRegs 0), fun x s h => ⟨_, exec_loadRegs_of_fits h,
    fun r => State.reg_loadedRegs_of_le, .regFile fun r hr => ?_⟩,
    fun x s h => State.withDataRange_faults _ (Nat.succ_pos _) (by omega)⟩
  exact State.reg_loadedRegs_of_lt (Nat.lt_of_not_le (mt mem_regsThrough_of_le hr))

/-- Settles O28: the load reads at `I + r` the byte that the store put there. -/
theorem storeThenLoadRestoresRegisters : Obligations.StoreThenLoadRestoresRegisters := by
  intro x s t u hfit hstore hindex hblock
  rw [exec_storeRegs_of_fits hfit] at hstore
  cases hstore
  refine ⟨_, exec_loadRegs_of_fits (by rwa [hindex]), fun r hr => ?_, fun r => State.reg_loadedRegs_of_lt⟩
  calc ({ u with v := u.loadedRegs x } : State).reg r = u.byteAt (s.index.toNat + r.toNat) := by
        rw [State.reg_loadedRegs_of_le hr, hindex]
    _ = (s.writeBlock (s.regsUpTo x)).byteAt (s.index.toNat + r.toNat) := hblock r.toNat hr
    _ = s.reg r := State.byteAt_writeBlock_regsUpTo hfit hr

end Sys2Proof.Machine

/-! # The framebuffer (43_display.md) -/

namespace Sys2Proof.Machine

variable {s t u : State} {x y n : Nibble} {pixels : List Pixel} {p q : Pixel}

/-! ## clear-screen (R170) -/

/-- Settles O30: the encoding is a row of R90, and the new framebuffer is the cleared one. -/
theorem clearScreenTurnsEveryCellOff : Obligations.ClearScreenTurnsEveryCellOff :=
  ⟨decodesAs_opcodeRow .clearScreen, fun _ => ⟨_, rfl, fun col row => fbGet_fbClear (col, row), .framebuffer rfl _⟩⟩

/-! ## The pixels of a sprite, in row-major order (R171, R172) -/

/-- One cell comes before another in row-major order (R172). -/
def Pixel.Precedes (p q : Pixel) : Prop := p.2 < q.2 ∨ p.2 = q.2 ∧ p.1 < q.1

/-- A row byte lists its pixels from left to right (R171). -/
theorem pairwise_precedes_spriteRow (px row : Nat) (b : Byte) : (spriteRow px row b).Pairwise Pixel.Precedes := by
  refine List.Pairwise.filterMap _ (fun c d hcd p hp q hq => ?_) (List.pairwise_lt_range (n := 8))
  obtain ⟨-, hp⟩ := Option.ite_none_right_eq_some.1 hp
  obtain ⟨-, hq⟩ := Option.ite_none_right_eq_some.1 hq
  cases hp
  cases hq
  exact .inr ⟨rfl, Nat.add_lt_add_left hcd px⟩

/-- A sprite lists its pixels in row-major order (R172). -/
theorem pairwise_precedes_spritePixels (px py : Nat) (bytes : List Byte) :
    (spritePixels px py bytes).Pairwise Pixel.Precedes := by
  induction bytes generalizing py with
  | nil => exact .nil
  | cons b bs ih =>
    refine List.pairwise_append.2 ⟨pairwise_precedes_spriteRow px py b, ih (py + 1), fun p hp q hq => ?_⟩
    obtain ⟨hprow, -⟩ := mem_spriteRow.1 hp
    obtain ⟨k, -, hqrow, -⟩ := mem_spritePixels.1 hq
    left
    omega

/-- A pixel of the sprite that draw reads is a set bit `7 - c` of byte `r`, seen from the start position (R172). -/
theorem State.mem_drawPixels {col row : Nat} :
    (col, row) ∈ s.drawPixels x y n ↔
      ∃ r < n.toNat, ∃ c < 8, col = (s.reg x).toNat % 64 + c ∧ row = (s.reg y).toNat % 32 + r ∧
        (s.byteAt (s.index.toNat + r)).getLsbD (7 - c) = true := by
  rw [State.drawPixels, mem_spritePixels]
  simp only [State.readBlock, List.length_map, List.length_range, List.getElem_map, List.getElem_range,
    State.dataAddr_eq]
  constructor
  · rintro ⟨r, hr, hrow, c, hc, hcol, hbit⟩
    exact ⟨r, hr, c, hc, hcol, hrow, hbit⟩
  · rintro ⟨r, hr, c, hc, hcol, hrow, hbit⟩
    exact ⟨r, hr, hrow, c, hc, hcol, hbit⟩

theorem State.nodup_drawPixels (s : State) (x y n : Nibble) : (s.drawPixels x y n).Nodup :=
  nodup_spritePixels _ _ _

/-- The sprite depends on memory, `I` and the start position alone (R172). -/
theorem State.drawPixels_congr (hmem : u.mem = s.mem) (hindex : u.index = s.index)
    (hcol : (u.reg x).toNat % 64 = (s.reg x).toNat % 64) (hrow : (u.reg y).toNat % 32 = (s.reg y).toNat % 32) :
    u.drawPixels x y n = s.drawPixels x y n := by
  have hblock : u.readBlock n.toNat = s.readBlock n.toNat := by
    simp only [State.readBlock, State.dataAddr_eq, hindex, State.byteAt_congr hmem]
  rw [State.drawPixels, State.drawPixels, hblock, State.drawStart, State.drawStart]
  simp only [Config.fbWidth_eq, Config.fbHeight_eq, hcol, hrow]

/-! ## The first pixel outside the frame (R172, R201) -/

theorem firstOutside_eq_none : firstOutside pixels = none ↔ ∀ p ∈ pixels, inFrame p := by
  simp [firstOutside]

theorem firstOutside_eq_some (h : firstOutside pixels = some p) : p ∈ pixels ∧ ¬ inFrame p :=
  ⟨List.mem_of_find?_eq_some h, by simpa only [Bool.not_eq_true', decide_eq_false_iff_not] using List.find?_some h⟩

/-- In a list in row-major order, no pixel outside the frame comes before the one that the check finds. -/
theorem eq_or_precedes_of_firstOutside (hsorted : pixels.Pairwise Pixel.Precedes) (h : firstOutside pixels = some p)
    (hq : q ∈ pixels) (hout : ¬ inFrame q) : q = p ∨ p.Precedes q := by
  obtain ⟨-, before, after, rfl, hbefore⟩ := List.find?_eq_some_iff_append.1 h
  rcases List.mem_append.1 hq with hq | hq
  · exact absurd (by simpa using hbefore q hq) hout
  · obtain ⟨-, hp, -⟩ := List.pairwise_append.1 hsorted
    exact (List.mem_cons.1 hq).imp_right (List.rel_of_pairwise_cons hp)

/-! ## What plotting leaves (R172) -/

/-- Plotting distinct pixels of the frame flips exactly their cells. -/
theorem State.cell_plot (hn : pixels.Nodup) (hf : ∀ p ∈ pixels, inFrame p) (col row : Nat) :
    (s.plot pixels).cell col row = (s.cell col row ^^ decide ((col, row) ∈ pixels)) :=
  fbGet_togglePixels hn hf s.fb false (col, row)

/-- The collision that plotting leaves in `VF`: some pixel was on before. -/
theorem State.reg_plot_flag (hn : pixels.Nodup) :
    (s.plot pixels).reg 0xF = flagByte (pixels.any fun p => s.cell p.1 p.2) := by
  calc (s.plot pixels).reg 0xF = flagByte (togglePixels pixels s.fb false).2 := s.reg_setReg_self 0xF _
    _ = flagByte (pixels.any fun p => s.cell p.1 p.2) := by rw [togglePixels_hit hn, Bool.false_or]; rfl

theorem State.reg_plot_flag_of_hit (hn : pixels.Nodup) (hp : p ∈ pixels) (hon : s.cell p.1 p.2 = true) :
    (s.plot pixels).reg 0xF = 1 := by
  have hany : (pixels.any fun p => s.cell p.1 p.2) = true := List.any_eq_true.2 ⟨p, hp, hon⟩
  rw [State.reg_plot_flag hn, hany]
  rfl

theorem State.reg_plot_flag_of_no_hit (hn : pixels.Nodup) (hoff : ∀ p ∈ pixels, s.cell p.1 p.2 = false) :
    (s.plot pixels).reg 0xF = 0 := by
  have hany : (pixels.any fun p => s.cell p.1 p.2) = false := List.any_eq_false.2 (by simpa using hoff)
  rw [State.reg_plot_flag hn, hany]
  rfl

/-! ## draw, case by case (R172, R204) -/

theorem State.not_accessLeavesMemory_draw :
    ¬ s.accessLeavesMemory (.draw x y n) ↔ s.index.toNat + n.toNat ≤ 0x1000 ∨ n.toNat = 0 := by
  simp only [State.accessLeavesMemory, bytesAccessed]
  omega

/-- draw with every byte in memory and every pixel in the frame plots the sprite. -/
theorem exec_draw_of_inFrame (hmem : ¬ s.accessLeavesMemory (.draw x y n))
    (hframe : firstOutside (s.drawPixels x y n) = none) :
    exec (.draw x y n) s = .next (s.plot (s.drawPixels x y n)) := by
  refine (State.withDataRange_of_stays _ hmem).trans ?_
  rw [Config.drawEdge_eq, State.plotAtEdge, hframe]

/-- draw with every byte in memory and a pixel outside the frame faults with the first such pixel. -/
theorem exec_draw_of_outside (hmem : ¬ s.accessLeavesMemory (.draw x y n))
    (hout : firstOutside (s.drawPixels x y n) = some p) :
    exec (.draw x y n) s = raise (.drawOutOfFrame s.fetchAddr s.op p.1 p.2) s := by
  refine (State.withDataRange_of_stays _ hmem).trans ?_
  rw [Config.drawEdge_eq, State.plotAtEdge, hout]

/-- A draw that ends running found its bytes in memory and its pixels in the frame, and plotted them. -/
theorem exec_draw_of_running (h : exec (.draw x y n) s = .next t) (ht : t.status = .running) :
    ¬ s.accessLeavesMemory (.draw x y n) ∧ firstOutside (s.drawPixels x y n) = none ∧
      t = s.plot (s.drawPixels x y n) := by
  have hmem : ¬ s.accessLeavesMemory (.draw x y n) := fun hleaves =>
    raise_ne_next_running ht ((State.withDataRange_of_leaves _ hleaves).symm.trans h)
  cases hframe : firstOutside (s.drawPixels x y n) with
  | none => exact ⟨hmem, rfl, (Host.Outcome.next.inj ((exec_draw_of_inFrame hmem hframe).symm.trans h)).symm⟩
  | some p => exact absurd ((exec_draw_of_outside hmem hframe).symm.trans h) (raise_ne_next_running ht)

/-! ## The statements -/

/-- Settles O31: the statement's set bits are the pixels of the sprite, and draw plots them, or faults on the memory
range, or faults on the first pixel outside the frame. -/
theorem drawTogglesItsSprite : Obligations.DrawTogglesItsSprite := by
  refine ⟨decodesAs_opcodeRow (.draw 0 0 0), fun x y n s => ?_⟩
  have hn := s.nodup_drawPixels x y n
  simp only [← State.mem_drawPixels, ← State.not_accessLeavesMemory_draw (x := x) (y := y)]
  refine ⟨fun hmem hframe => ?_, fun hleaves hpos => State.withDataRange_faults _ hpos hleaves,
    fun hmem ⟨col, row, hset, hout⟩ => ?_⟩
  · have hin : ∀ p ∈ s.drawPixels x y n, inFrame p := fun p => hframe p.1 p.2
    refine ⟨_, exec_draw_of_inFrame hmem (firstOutside_eq_none.2 hin), fun col row => ?_,
      fun ⟨_, _, hset, hon⟩ => State.reg_plot_flag_of_hit hn hset hon,
      fun hoff => State.reg_plot_flag_of_no_hit hn fun p hp =>
        Bool.eq_false_iff.2 fun hon => hoff ⟨p.1, p.2, hp, hon⟩,
      .plot (by simp) rfl _⟩
    rw [State.cell_plot hn hin]
    cases s.cell col row <;> simp
  · cases hfirst : firstOutside (s.drawPixels x y n) with
    | none => exact absurd (firstOutside_eq_none.1 hfirst _ hset) hout
    | some p =>
      obtain ⟨hp, hpout⟩ := firstOutside_eq_some hfirst
      refine ⟨p.1, p.2, hp, hpout, fun col' row' hset' hout' => ?_, exec_draw_of_outside hmem hfirst⟩
      rcases eq_or_precedes_of_firstOutside (pairwise_precedes_spritePixels _ _ _) hfirst hset' hout' with
        rfl | hrow | ⟨hrow, hcol⟩
      · exact .inr ⟨rfl, le_rfl⟩
      · exact .inl hrow
      · exact .inr ⟨hrow, hcol.le⟩

/-- Settles O32: the second draw plots the same pixels, and flipping a cell twice restores it. -/
theorem drawingTwiceRestoresTheFrame : Obligations.DrawingTwiceRestoresTheFrame := by
  intro x y n s t u _ hdraw ht hmem hindex hfb hcol hrow
  obtain ⟨hstays, hframe, rfl⟩ := exec_draw_of_running hdraw ht
  have hn := s.nodup_drawPixels x y n
  have hin := firstOutside_eq_none.1 hframe
  have hpixels : u.drawPixels x y n = s.drawPixels x y n := State.drawPixels_congr hmem hindex hcol hrow
  have hstays' : ¬ u.accessLeavesMemory (.draw x y n) := by
    rwa [State.accessLeavesMemory, hindex]
  have hcell (col row : Nat) : u.cell col row = (s.cell col row ^^ decide ((col, row) ∈ s.drawPixels x y n)) :=
    (State.cell_congr hfb col row).trans (State.cell_plot hn hin col row)
  refine ⟨u.plot (s.drawPixels x y n), ?_, rfl, fun col row => ?_, fun ⟨p, hp, hoff⟩ => ?_⟩
  · rw [exec_draw_of_inFrame hstays' (by rwa [hpixels]), hpixels]
  · rw [State.cell_plot hn hin, hcell, Bool.xor_assoc, Bool.xor_self, Bool.xor_false]
  · exact State.reg_plot_flag_of_hit hn hp (by rw [hcell, hoff, decide_eq_true hp, Bool.false_xor])

end Sys2Proof.Machine

/-! # The keypad and the timers (44_keys_timers.md) -/

namespace Sys2Proof.Machine

variable {f : Footprint} {s t : State}

/-! ## Key skips (R180, R181) -/

/-- With `Vx` a key number the lookup goes on with that key's entry. -/
theorem State.withKey_of_key {x : Nibble} {k : Fin 16} (go : Bool → Outcome) (h : (s.reg x).toNat = k.val) :
    s.withKey x go = go (s.key k) := by
  have hlt : (s.reg x).toNat < 16 := h ▸ k.isLt
  have hk : (⟨(s.reg x).toNat, hlt⟩ : Fin 16) = k := Fin.ext h
  rw [State.withKey, dif_pos hlt, hk]

/-- With `Vx` above 15 the lookup faults, whatever would have gone on (D7). -/
theorem State.withKey_of_no_key {x : Nibble} (go : Bool → Outcome) (h : 15 < (s.reg x).toNat) :
    s.withKey x go = raise (.keyIndexOutOfRange s.fetchAddr s.op (s.reg x)) s :=
  dif_neg (by omega)

theorem State.pc_skipIf_not (s : State) (taken : Bool) :
    (s.skipIf (!taken)).pc = if taken = true then s.pc else s.pc + 2 := by
  cases taken <;> rfl

theorem exec_skipKeyPressed (x : Nibble) (s : State) :
    exec (.skipKeyPressed x) s = s.withKey x fun down => .next (s.skipIf down) := rfl

theorem exec_skipKeyNotPressed (x : Nibble) (s : State) :
    exec (.skipKeyNotPressed x) s = s.withKey x fun down => .next (s.skipIf !down) := rfl

/-- Settles O33: each encoding is a row of R90, and each skip is a key lookup, which goes on or faults. -/
theorem keySkipsReadTheKeypad : Obligations.KeySkipsReadTheKeypad := by
  refine ⟨decodesAs_opcodeRow (.skipKeyPressed 0), decodesAs_opcodeRow (.skipKeyNotPressed 0),
    fun x s k hk => ?_, fun x s hbig => ?_⟩
  · rw [exec_skipKeyPressed, exec_skipKeyNotPressed, State.withKey_of_key _ hk, State.withKey_of_key _ hk]
    exact ⟨⟨_, rfl, s.skipIf_pc _, .skipIf rfl _⟩, ⟨_, rfl, s.pc_skipIf_not _, .skipIf rfl _⟩⟩
  · rw [exec_skipKeyPressed, exec_skipKeyNotPressed, State.withKey_of_no_key _ hbig, State.withKey_of_no_key _ hbig]
    exact ⟨rfl, rfl⟩

/-! ## wait-key (R182) -/

theorem exec_waitKey_of_highest {k : Fin 16} (x : Nibble) (hk : s.key k = true)
    (hhigh : ∀ j : Fin 16, k < j → s.key j = false) :
    exec (.waitKey x) s = .next (s.setReg x (BitVec.ofNat 8 k.val)) := by
  simp [exec, execWaitKey, State.scanKeys_eq_some.2 ⟨hk, hhigh⟩]

theorem exec_waitKey_of_none (x : Nibble) (h : ∀ k, s.key k = false) :
    exec (.waitKey x) s = .next (s.jumpTo (s.pc - 2)) := by
  simp [exec, execWaitKey, State.scanKeys_eq_none.2 h]

/-- A key number fits in a register. -/
theorem toNat_keyNumber (k : Fin 16) : (BitVec.ofNat 8 k.val).toNat = k.val :=
  Nat.mod_eq_of_lt (k.isLt.trans (by decide))

/-- Settles O34: the last key of the ascending scan is the highest one. -/
theorem waitKeyTakesTheHighestKey : Obligations.WaitKeyTakesTheHighestKey := by
  refine ⟨decodesAs_opcodeRow (.waitKey 0), fun x s k hk hhigh => ?_, fun x s hnone => ?_⟩
  · refine ⟨_, exec_waitKey_of_highest x hk hhigh, ?_, .setReg (by simp) _⟩
    rw [State.reg_setReg_self, toNat_keyNumber]
  · exact ⟨_, exec_waitKey_of_none x hnone, rfl, .jumpTo rfl _⟩

/-! ## Timer moves (R183 to R185) -/

theorem OnlyChanges.setDelay (h : f.delay = true) (b : Byte) : OnlyChanges f s { s with delay := b } :=
  { OnlyChanges.refl f s with delay := fun e => by simp [h] at e }

theorem OnlyChanges.setSound (h : f.sound = true) (b : Byte) : OnlyChanges f s { s with sound := b } :=
  { OnlyChanges.refl f s with sound := fun e => by simp [h] at e }

/-- Settles O36: each encoding is a row of R90, and each move is one write. -/
theorem timerMovesCopyOneByte : Obligations.TimerMovesCopyOneByte :=
  ⟨decodesAs_opcodeRow (.loadDelay 0), decodesAs_opcodeRow (.setDelay 0), decodesAs_opcodeRow (.setSound 0),
    fun x s => ⟨_, rfl, s.reg_setReg_self x _, .setReg (by simp) _⟩,
    fun _ _ => ⟨_, rfl, rfl, .setDelay rfl _⟩,
    fun _ _ => ⟨_, rfl, rfl, .setSound rfl _⟩⟩

/-! ## The timer step of a cycle (R190) -/

/-- No execute step but set-delay's writes `DT`: the footprints name one writer (R31). -/
theorem delay_of_executeDecoded {d : Decoded} (h : executeDecoded d s = .next t)
    (hd : ∀ x, d ≠ .instr (.setDelay x)) : t.delay = s.delay := by
  cases d with
  | noOp w =>
    cases h
    rfl
  | instr i =>
    by_contra hne
    obtain ⟨x, rfl⟩ := writer_of_footprint_delay (mt (exec_onlyChanges h).delay hne)
    exact hd x rfl

/-- No execute step but set-sound's writes `ST`: the footprints name one writer (R31). -/
theorem sound_of_executeDecoded {d : Decoded} (h : executeDecoded d s = .next t)
    (hd : ∀ x, d ≠ .instr (.setSound x)) : t.sound = s.sound := by
  cases d with
  | noOp w =>
    cases h
    rfl
  | instr i =>
    by_contra hne
    obtain ⟨x, rfl⟩ := writer_of_footprint_sound (mt (exec_onlyChanges h).sound hne)
    exact hd x rfl

/-- A cycle that leaves the block Faulted changed `status` alone, or nothing (R202). -/
theorem eq_of_faulted_cycle (h : step s = .next t) (ht : t.status ≠ .running) : t = { s with status := t.status } := by
  rcases step_cases h with ⟨-, rfl⟩ | ⟨-, -, rfl⟩ | ⟨-, -, u, -, ⟨hr, rfl⟩ | ⟨f, -, rfl⟩⟩
  · rfl
  · rfl
  · exact absurd hr ht
  · rfl

/-- Settles O37: a cycle that ends running stepped the timers the instruction left; one that ends Faulted rolled back. -/
theorem timersTickOnceACycle : Obligations.TimersTickOnceACycle := by
  refine fun s t h => ⟨fun ht => ?_, fun ht => ?_⟩
  · obtain ⟨-, u, hu, -, rfl⟩ := completed_cycle (running_before_of_running_after h ht) h ht
    refine ⟨fun x hd => ?_, fun hd => ?_, fun x hd => ?_, fun hd => ?_⟩
    · rw [hd] at hu
      cases hu
      exact toNat_tick (s.reg x)
    · rw [State.timerStep_delay, toNat_tick, delay_of_executeDecoded hu hd, State.beginCycle_delay]
    · rw [hd] at hu
      cases hu
      exact toNat_tick (s.reg x)
    · rw [State.timerStep_sound, toNat_tick, sound_of_executeDecoded hu hd, State.beginCycle_sound]
  · rw [eq_of_faulted_cycle h ht]
    exact ⟨rfl, rfl⟩

end Sys2Proof.Machine

/-! # Faults and the host interface (60_exceptions.md) -/

namespace Sys2Proof.Machine

variable {s t : State} {f g : Fault} {i : Instr} {o : Outcome} {x y n : Nibble} {pixels : List Pixel}

/-! ## Ending in a fault (R202) -/

/-- The outcome is a next state whose status is this fault (log entry 1). -/
def FaultsWith (o : Outcome) (f : Fault) : Prop := ∃ t, o = .next t ∧ t.status = .faulted f

@[simp] theorem faultsWith_next : FaultsWith (.next t) f ↔ t.status = .faulted f :=
  ⟨fun ⟨_, h, hf⟩ => Host.Outcome.next.inj h ▸ hf, fun hf => ⟨t, rfl, hf⟩⟩

@[simp] theorem faultsWith_raise : FaultsWith (raise g s) f ↔ f = g := by
  rw [raise, faultsWith_next, State.takeFault_status, Status.faulted.injEq, eq_comm]

theorem not_faultsWith_next (h : t.status = .running) : ¬ FaultsWith (.next t) f := by
  simp [h]

/-- The end of a cycle keeps the fault of the execute step, and raises none of its own (R202). -/
theorem faultsWith_finishCycle : FaultsWith (finishCycle s o) f ↔ FaultsWith o f := by
  cases o with
  | next t =>
    cases ht : t.status with
    | running => simp [finishCycle_of_running s ht, ht]
    | faulted g => simp [finishCycle_of_faulted s ht, ht]
  | fault r => rfl
  | refused r => rfl

/-! ## The checks that raise a fault (R58, R172, R180) -/

/-- An instruction that checks the range of its bytes faults when they leave memory, and as what it goes on with when
they do not (R58). -/
theorem faultsWith_of_withDataRange (hexec : exec i s = s.withDataRange (bytesAccessed i) o) :
    FaultsWith (exec i s) f ↔
      s.accessLeavesMemory i ∧ f = .memoryOutOfRange s.fetchAddr s.op (firstOutOfRange s.index) ∨
        ¬ s.accessLeavesMemory i ∧ FaultsWith o f := by
  rw [hexec]
  by_cases h : s.accessLeavesMemory i
  · simp [State.withDataRange_of_leaves o h, h]
  · simp [State.withDataRange_of_stays o h, h]

/-- The frame check faults at the first pixel outside the frame, if there is one (R172). -/
theorem faultsWith_plotAtEdge (hs : s.status = .running) : FaultsWith (s.plotAtEdge .fault pixels) f ↔
    ∃ p, firstOutside pixels = some p ∧ f = .drawOutOfFrame s.fetchAddr s.op p.1 p.2 := by
  unfold State.plotAtEdge
  cases firstOutside pixels <;> simp [hs]

/-- A key lookup faults with `Vx` above 15, where going on with an entry never does (R180, R181). -/
theorem faultsWith_withKey {go : Bool → Outcome} (hgo : ∀ down, ¬ FaultsWith (go down) f) :
    FaultsWith (s.withKey x go) f ↔ 15 < (s.reg x).toNat ∧ f = .keyIndexOutOfRange s.fetchAddr s.op (s.reg x) := by
  by_cases h : 15 < (s.reg x).toNat
  · simp [State.withKey_of_no_key go h, h]
  · rw [State.withKey_of_key (k := ⟨(s.reg x).toNat, by omega⟩) go rfl]
    simp [hgo, h]

/-! ## The fault each instruction raises (R201) -/

/-- R201 by instruction: the fault it raises in the state it executes in, and when. -/
def Raises (s : State) (f : Fault) (i : Instr) : Prop :=
  match i with
  | .call _ => s.sp.val = 16 ∧ f = .stackOverflow s.fetchAddr s.op
  | .ret => s.sp.val = 0 ∧ f = .stackUnderflow s.fetchAddr s.op
  | .storeBcd _ | .storeRegs _ | .loadRegs _ =>
    s.accessLeavesMemory i ∧ f = .memoryOutOfRange s.fetchAddr s.op (firstOutOfRange s.index)
  | .draw x y n =>
    s.accessLeavesMemory i ∧ f = .memoryOutOfRange s.fetchAddr s.op (firstOutOfRange s.index) ∨
      ¬ s.accessLeavesMemory i ∧ ∃ p, firstOutside (s.drawPixels x y n) = some p ∧
        f = .drawOutOfFrame s.fetchAddr s.op p.1 p.2
  | .skipKeyPressed x | .skipKeyNotPressed x =>
    15 < (s.reg x).toNat ∧ f = .keyIndexOutOfRange s.fetchAddr s.op (s.reg x)
  | _ => False

theorem faultsWith_exec_call (hs : s.status = .running) (nnn : Addr12) :
    FaultsWith (exec (.call nnn) s) f ↔ Raises s f (.call nnn) := by
  by_cases h : s.sp.val = 16
  · simp [exec_call_of_full nnn h, Raises, h]
  · simp [exec_call_of_room (s := s) nnn (by omega), Raises, h, hs]

theorem faultsWith_exec_ret (hs : s.status = .running) : FaultsWith (exec .ret s) f ↔ Raises s f .ret := by
  by_cases h : s.sp.val = 0
  · rw [exec_ret_of_empty h, faultsWith_raise, Raises, and_iff_right h]
  · rw [exec_ret_of_entry (Nat.pos_of_ne_zero h), faultsWith_next, Raises]
    simp [h, hs]

theorem not_faultsWith_exec_waitKey (hs : s.status = .running) : ¬ FaultsWith (exec (.waitKey x) s) f := by
  simp only [exec, execWaitKey]
  split <;> exact not_faultsWith_next hs

/-- An instruction ends in a fault exactly when the table gives that fault for it (R201). -/
theorem faultsWith_exec (hs : s.status = .running) : FaultsWith (exec i s) f ↔ Raises s f i := by
  cases i
  case call nnn => exact faultsWith_exec_call hs nnn
  case ret => exact faultsWith_exec_ret hs
  case storeBcd x | storeRegs x | loadRegs x =>
    rw [faultsWith_of_withDataRange rfl]
    exact or_iff_left fun ⟨_, hgo⟩ => absurd hgo (not_faultsWith_next hs)
  case draw x y n =>
    exact (faultsWith_of_withDataRange rfl).trans (or_congr_right (and_congr_right' (faultsWith_plotAtEdge hs)))
  case skipKeyPressed x | skipKeyNotPressed x =>
    simp only [exec_skipKeyPressed, exec_skipKeyNotPressed]
    exact faultsWith_withKey fun _ => not_faultsWith_next ((s.skipIf_status _).trans hs)
  case waitKey x => exact iff_false_intro (not_faultsWith_exec_waitKey hs)
  case skipEqConst | skipNeqConst | skipEqReg | skipNeqReg =>
    exact iff_false_intro (not_faultsWith_next ((s.skipIf_status _).trans hs))
  all_goals exact iff_false_intro (not_faultsWith_next hs)

/-! ## The fault a cycle raises (R201 to R204) -/

@[simp] theorem State.fetchAddr_beginCycle (s : State) : s.beginCycle.fetchAddr = s.pc :=
  BitVec.add_sub_cancel s.pc 2

@[simp] theorem State.accessLeavesMemory_beginCycle :
    s.beginCycle.accessLeavesMemory i ↔ s.accessLeavesMemory i := Iff.rfl

@[simp] theorem State.drawPixels_beginCycle : s.beginCycle.drawPixels x y n = s.drawPixels x y n := rfl

theorem State.not_fetchFits_of_lt (h : 0xFFE < s.pc.toNat) : ¬ s.fetchFits := by
  rw [State.fetchFits, Config.memSize_eq]
  omega

/-- A cycle faults on its fetch, or as the instruction does that it decodes; a no-op faults never (R83, R203). -/
theorem faultsWith_step (hs : s.status = .running) : FaultsWith (step s) f ↔
    0xFFE < s.pc.toNat ∧ f = .fetchOutOfRange s.pc ∨
      s.pc.toNat ≤ 0xFFE ∧ ∃ i, decode s.fetchWord = .instr i ∧ Raises s.beginCycle f i := by
  by_cases hpc : s.pc.toNat ≤ 0xFFE
  · rw [step_of_fits hs (State.fetchFits_of_le hpc), faultsWith_finishCycle]
    simp only [hpc, Nat.not_lt.2 hpc, false_and, false_or, true_and]
    cases decode s.fetchWord with
    | instr i =>
      simp only [Decoded.instr.injEq, exists_eq_left']
      exact faultsWith_exec (s := s.beginCycle) hs
    | noOp w =>
      simp only [reduceCtorEq, false_and, exists_false, iff_false]
      exact not_faultsWith_next (t := s.beginCycle) hs
  · have hout : 0xFFE < s.pc.toNat := Nat.lt_of_not_le hpc
    rw [step_of_not_fits hs (State.not_fetchFits_of_lt hout), faultsWith_raise]
    simp [hpc, hout]

/-! ## The table's conditions as numbers (R201) -/

theorem State.accessLeavesMemory_storeBcd :
    s.accessLeavesMemory (.storeBcd x) ↔ 0xFFF < s.index.toNat + 2 := by
  simp only [State.accessLeavesMemory, bytesAccessed]
  omega

theorem State.accessLeavesMemory_storeRegs :
    s.accessLeavesMemory (.storeRegs x) ↔ 0xFFF < s.index.toNat + x.toNat := by
  simp only [State.accessLeavesMemory, bytesAccessed]
  omega

theorem State.accessLeavesMemory_loadRegs :
    s.accessLeavesMemory (.loadRegs x) ↔ 0xFFF < s.index.toNat + x.toNat :=
  State.accessLeavesMemory_storeRegs (x := x)

theorem State.accessLeavesMemory_draw :
    s.accessLeavesMemory (.draw x y n) ↔ 0 < n.toNat ∧ 0x1000 < s.index.toNat + n.toNat := Iff.rfl

/-- The one word with the value `max(I, 0x1000)` is the address that a memory fault records (R201). -/
theorem exists_firstOutOfRange {base : Word} {P : Word → Prop} :
    (∃ a : Word, a.toNat = max base.toNat 0x1000 ∧ P a) ↔ P (firstOutOfRange base) := by
  simp only [← toNat_firstOutOfRange, BitVec.toNat_inj, exists_eq_left]

/-- The frame check in the numbers of the table: column 64 or more, row 32 or more (R201). -/
theorem firstOutside_eq_find? :
    firstOutside pixels = pixels.find? (fun p => decide (64 ≤ p.1 ∨ 32 ≤ p.2)) := by
  refine congrArg (pixels.find? ·) (funext fun p => ?_)
  rw [← decide_not, decide_eq_decide, not_and_or, not_lt, not_lt, Config.fbWidth_eq, Config.fbHeight_eq]

/-- Settles O38: the table of each instruction, read in the state before the cycle. -/
theorem faultsAreExactlyTheTabulatedOnes : Obligations.FaultsAreExactlyTheTabulatedOnes := by
  refine ⟨fun _ _ _ _ _ _ => ⟨rfl, rfl, rfl, rfl, rfl, rfl⟩, fun s f hs => ?_⟩
  refine (faultsWith_step hs).trans (or_congr_right (and_congr_right' (exists_congr fun i => and_congr_right' ?_)))
  simp only [exists_firstOutOfRange, ← firstOutside_eq_find?]
  cases i
  case storeBcd x => simp [Raises, State.accessLeavesMemory_storeBcd, and_comm]
  case storeRegs x => simp [Raises, State.accessLeavesMemory_storeRegs, and_comm]
  case loadRegs x => simp [Raises, State.accessLeavesMemory_loadRegs, and_comm]
  case draw x y n =>
    simp only [Raises, State.not_accessLeavesMemory_draw, State.accessLeavesMemory_beginCycle]
    simp [State.accessLeavesMemory_draw, and_comm, or_comm]
  all_goals simp [Raises]

/-! ## What a faulted cycle leaves (R201, R202) -/

/-- Every fault that a cycle raises records the fetch address and the word fetched there, and its condition holds. -/
theorem accounted_of_faulted_cycle (hs : s.status = .running) (h : step s = .next t) (hf : t.status = .faulted f) :
    f.fetchedAt = s.pc ∧ f.condition s ∧
      (0xFFE < s.pc.toNat ∧ f.word = none ∨ s.pc.toNat ≤ 0xFFE ∧ f.word = some s.fetchWord) := by
  obtain ⟨-, htable⟩ := faultsAreExactlyTheTabulatedOnes
  rcases (htable s f hs).1 ⟨t, h, hf⟩ with ⟨hpc, rfl⟩ | ⟨hpc, i, hd,
    ⟨nnn, rfl, hsp, rfl⟩ | ⟨rfl, hsp, rfl⟩ | ⟨a, ha, rfl, hblock⟩ | ⟨x, hi, hkey, rfl⟩ |
    ⟨x, y, n, col, row, rfl, hmem, hout, rfl⟩⟩
  · exact ⟨rfl, hpc, .inl ⟨hpc, rfl⟩⟩
  · exact ⟨rfl, ⟨⟨nnn, hd⟩, hsp⟩, .inr ⟨hpc, rfl⟩⟩
  · exact ⟨rfl, ⟨hd, hsp⟩, .inr ⟨hpc, rfl⟩⟩
  · refine ⟨rfl, ⟨ha, i, hd, ?_⟩, .inr ⟨hpc, rfl⟩⟩
    rcases hblock with ⟨x, rfl, hx⟩ | ⟨x, rfl, hx⟩ | ⟨x, rfl, hx⟩ | ⟨x, y, n, rfl, hn⟩
    · exact State.accessLeavesMemory_storeBcd.2 hx
    · exact State.accessLeavesMemory_storeRegs.2 hx
    · exact State.accessLeavesMemory_loadRegs.2 hx
    · exact hn
  · exact ⟨rfl, ⟨hkey, x, rfl, hi.imp (hd.trans <| congrArg _ ·) (hd.trans <| congrArg _ ·)⟩, .inr ⟨hpc, rfl⟩⟩
  · exact ⟨rfl, ⟨x, y, n, hd, State.not_accessLeavesMemory_draw.2 hmem.symm, hout⟩, .inr ⟨hpc, rfl⟩⟩

/-- A fault's condition does not read `status` (R202: a fault is precise). -/
theorem Fault.condition_takeFault : f.condition (s.takeFault g) ↔ f.condition s := by
  cases f <;> rfl

/-- A cycle that leaves the block Faulted is the state before it with that fault taken (R202). -/
theorem eq_takeFault_of_faulted_cycle (h : step s = .next t) (hf : t.status = .faulted f) : t = s.takeFault f := by
  rw [eq_of_faulted_cycle h (by simp [hf]), hf]
  rfl

/-- Settles O47: a cycle that faults from a running block leaves that block with the fault the table accounts for. -/
theorem stepKeepsFaultAccounted : Obligations.StepKeepsFaultAccounted := by
  intro s t hacc h f hf
  by_cases hs : s.status = .running
  · obtain ⟨hat, hcond, hword⟩ := accounted_of_faulted_cycle hs h hf
    obtain rfl := eq_takeFault_of_faulted_cycle h hf
    refine ⟨hat, fun w hw => ?_, Fault.condition_takeFault.2 hcond⟩
    rcases hword with ⟨-, hnone⟩ | ⟨hpc, hsome⟩
    · simp [hnone] at hw
    · exact ⟨State.fetchFits_of_le hpc, Option.some.inj (hw.symm.trans hsome)⟩
  · rw [step_of_faulted hs] at h
    cases h
    exact hacc f hf

/-- Settles O39: a cycle that changes `status` left it Faulted, so it rolled back all else. -/
theorem faultsArePreciseAndSticky : Obligations.FaultsArePreciseAndSticky := by
  refine ⟨fun s t h hne => ?_, fun _ => step_of_faulted, fun _ => rfl⟩
  have hs : s.status = .running := by
    by_contra hs
    rw [step_of_faulted hs] at h
    cases h
    exact hne rfl
  cases hf : t.status with
  | running => exact absurd (hf.trans hs.symm) hne
  | faulted f =>
    obtain ⟨hat, -, hword⟩ := accounted_of_faulted_cycle hs h hf
    refine ⟨hs, f, eq_takeFault_of_faulted_cycle h hf, hat, fun hpc => ?_, fun hpc => ?_⟩
    · exact (hword.resolve_left fun hout => absurd hout.1 (Nat.not_lt.2 hpc)).2
    · exact (hword.resolve_right fun hin => absurd hin.1 (Nat.not_le.2 hpc)).2

/-- Settles O40: past the last word the fetch faults; before it, the condition of a fetch fault fails. -/
theorem fetchFaultsPastTheLastWord : Obligations.FetchFaultsPastTheLastWord := by
  refine ⟨fun s hs hpc => step_of_not_fits hs (State.not_fetchFits_of_lt hpc),
    fun s t p hs hpc h hf => ?_⟩
  obtain ⟨-, hcond, -⟩ := accounted_of_faulted_cycle hs h hf
  exact Nat.not_lt.2 hpc hcond

/-! ## The program image (R216) -/

/-- A new memory that reads alike outside the named addresses stays in the footprint. -/
theorem OnlyChanges.memory {ft : Footprint} {m : Mem} (h : ∀ a, a ∉ ft.stored → memRead m a = s.byteAt a) :
    OnlyChanges ft s { s with mem := m } :=
  { OnlyChanges.refl ft s with bytes := h }

theorem hostLoadProgram_of_fits {image : List Byte} (h : image.length ≤ 3584) :
    hostLoadProgram image s = .done { s with mem := memWriteFrom 0x200 image s.mem } :=
  if_pos (decide_eq_true h)

theorem hostLoadProgram_of_long {image : List Byte} (h : 3584 < image.length) :
    hostLoadProgram image s = .refused (.capacity image.length) :=
  if_neg (by simpa [programFits] using h)

/-- Settles O50: an image that fits ends at 0xFFF, so what is placed from 0x200 on reads back and no more. -/
theorem loadProgramWritesOnlyTheImage : Obligations.LoadProgramWritesOnlyTheImage := by
  refine ⟨fun image s h => ?_, fun image s => hostLoadProgram_of_long⟩
  have hread := memRead_memWriteFrom s.mem 0x200 image (by rw [Config.memSize_eq]; omega)
  refine ⟨_, hostLoadProgram_of_fits h, fun k hk => (hread _).trans (by simp [hk]), .memory fun a ha => ?_⟩
  rw [hread]
  split_ifs with hle hlt
  · exact absurd (List.mem_map.2 ⟨a - 0x200, List.mem_range.2 hlt, Nat.add_sub_cancel' hle⟩) ha
  · rfl
  · rfl

/-! ## The keypad (R217, R218) -/

/-- Read after write of a keypad entry (R32). -/
theorem State.key_set (s : State) (k j : Fin 16) (pressed : Bool) :
    ({ s with keypad := s.keypad.set k.val pressed k.isLt } : State).key j = if j = k then pressed else s.key j := by
  simp [State.key, Vector.getElem_set, Fin.ext_iff, eq_comm]

theorem hostSetKeyTo_of_key (k : Fin 16) (pressed : Bool) (s : State) :
    hostSetKeyTo k.val pressed s = .done { s with keypad := s.keypad.set k.val pressed k.isLt } :=
  dif_pos k.isLt

theorem hostSetKeyTo_of_no_key {k : Nat} (pressed : Bool) (h : 15 < k) :
    hostSetKeyTo k pressed s = .refused (.keyIndex k) :=
  dif_neg (by omega)

/-- Settles O51: setKey and clearKey are the two values of one write. -/
theorem keyOperationsChangeOneEntry : Obligations.KeyOperationsChangeOneEntry := by
  refine ⟨fun k s => ⟨_, _, hostSetKeyTo_of_key k true s, hostSetKeyTo_of_key k false s, ?_, ?_, fun j hj => ?_,
    rfl, rfl, rfl, rfl⟩, fun k s h => ⟨hostSetKeyTo_of_no_key true h, hostSetKeyTo_of_no_key false h⟩⟩
  · rw [State.key_set, if_pos rfl]
  · rw [State.key_set, if_pos rfl]
  · rw [State.key_set, State.key_set, if_neg hj, if_neg hj]
    exact ⟨rfl, rfl⟩

/-! ## Raw writes (R221) -/

/-- Writing a stack entry stays in a footprint that names it. -/
theorem OnlyChanges.setStack {ft : Footprint} {k : Nat} (hk : k < 16) (h : k ∈ ft.stackEntries) (w : Word) :
    OnlyChanges ft s { s with stack := s.stack.set k w hk } :=
  { OnlyChanges.refl ft s with
    stack := fun _ hj hne => Vector.getElem_set_ne hk hj fun e => hne (e ▸ h) }

theorem OnlyChanges.setSp {ft : Footprint} (h : ft.sp = true) (sp : Fin 17) : OnlyChanges ft s { s with sp := sp } :=
  { OnlyChanges.refl ft s with sp := fun e => by simp [h] at e }

theorem hostWrite_sp_of_le {k : Nat} (h : k ≤ 16) :
    hostWrite (.sp k) s = .done { s with sp := ⟨k, Nat.lt_succ_of_le h⟩ } := dif_pos h

theorem hostWrite_sp_of_lt {k : Nat} (h : 16 < k) : hostWrite (.sp k) s = .refused (.stackPointer k) :=
  dif_neg (Nat.not_le.2 h)

/-- Read after write of a cell of the frame (R33). -/
theorem State.cell_fbSet (s : State) (col : Fin 64) (row : Fin 32) (on : Bool) (c r : Nat) :
    ({ s with fb := fbSet s.fb (col.val, row.val) on } : State).cell c r =
      if (c, r) = (col.val, row.val) then on else s.cell c r := by
  have hin : inFrame (col.val, row.val) := ⟨col.isLt, row.isLt⟩
  exact (fbGet_fbSet s.fb _ _ on).trans (if_congr (and_iff_left hin) rfl rfl)

/-- Settles O54, field by field: what is read back, and the footprint of the one write. -/
theorem rawWritesStoreOneField : Obligations.RawWritesStoreOneField :=
  ⟨fun x b s => ⟨_, rfl, s.reg_setReg_self x b, .setReg (by simp) b⟩,
    fun a b s => ⟨_, rfl, memRead_memWrite_self s.mem b a.isLt,
      .memory fun c hc => memRead_memWrite_other s.mem b (by simpa using hc)⟩,
    fun w s => ⟨_, rfl, rfl, .setIndex rfl w⟩,
    fun w s => ⟨_, rfl, rfl, .jumpTo rfl w⟩,
    fun k w s => ⟨_, rfl, Vector.getElem_set_self k.isLt, .setStack k.isLt (by simp) w⟩,
    fun n s h => ⟨_, hostWrite_sp_of_le h, rfl, .setSp rfl _⟩,
    fun n s h => hostWrite_sp_of_lt h,
    fun b s => ⟨_, rfl, rfl, .setDelay rfl b⟩,
    fun b s => ⟨_, rfl, rfl, .setSound rfl b⟩,
    fun k pressed s => ⟨_, rfl, (s.key_set k k pressed).trans (if_pos rfl),
      fun j hj => (s.key_set k j pressed).trans (if_neg hj), rfl⟩,
    fun col row on s => ⟨_, rfl, (s.cell_fbSet col row on _ _).trans (if_pos rfl),
      fun c r hne => (s.cell_fbSet col row on c r).trans (if_neg hne), .framebuffer rfl _⟩,
    fun w s => rfl, fun st s => hostWrite_status, fun s => hostWrite_running_of_faulted⟩

end Sys2Proof.Machine

/-! # Initialization (R230) -/

namespace Sys2Proof.Machine

variable {s t : State}

@[simp] theorem hostInit_draws (s : State) : (hostInit s).draws = s.draws := rfl

/-- The draw counter is all that `initialize()` takes from the state it starts in. -/
theorem hostInit_congr_draws (h : s.draws = t.draws) : hostInit s = hostInit t :=
  congrArg (fun n => { State.reset with draws := n }) h

/-- Settles O52: `initialize()` keeps the draw counter and depends on nothing else, so a second one answers the same. -/
theorem initializeResetsFromAnyState : Obligations.InitializeResetsFromAnyState :=
  fun s => ⟨rfl, hostInit_congr_draws (hostInit_draws s)⟩

end Sys2Proof.Machine
